-- ==== Sys2Proof/Word.lean ====
section
/-! DEFINITION. The widths of spec/00_scope.md R7, R9, R13 as types: bytes, 64-bit words, SHA-256's 32-bit words,
and the fixed byte sequences of the core. -/

namespace Sys2Proof

/-- A byte: 8 bits (R13). -/
abbrev Byte := BitVec 8

/-- A 64-bit value: a word of a block, a MixedValue, a chaining value (R7: W = 64). -/
abbrev Word := BitVec 64

/-- A 32-bit word of the Finalizer's SHA-256 (R142). -/
abbrev Word32 := BitVec 32

/-- A Block: exactly B = 64 bytes, byte 0 first in stream order (R13, R16). -/
abbrev Block := Vector Byte 64

/-- A Digest: 32 bytes, byte 0 first (R7: DLEN = 32, R140). -/
abbrev Digest := Vector Byte 32

/-- The hexadecimal form: 64 ASCII characters, character 0 first (R7: HEXLEN = 64, R147). -/
abbrev HexString := Vector Byte 64

end Sys2Proof
end

