-- ==== Sys2Proof/Config.lean ====
section
/-! DEFINITION. The fixed parameters of spec/00_scope.md R7 and the model's one free value.
The literals are taken as the spec prints them (U15: UNVERIFIED against the repository, assumption log 8). -/

namespace Sys2Proof.Config

/-- Bytes per block (R7). -/
def B : Nat := 64

/-- Left-rotation distance in the Mixer (R7). -/
def ROT : Nat := 1

/-- Initial chaining value (R7). -/
def IV : Word := 0xA5A5A5A5A5A5A5A5#64

/-- Compressor multiplier, 2^40 + 0x1B3 (R7). -/
def P : Word := 0x100000001B3#64

/-- Compressor right-shift distance (R7). -/
def S : Nat := 33

/-- FREE VALUE: what the n-th hardware reset leaves in byte i of BUF. The spec calls it unspecified, "any 64 bytes"
(R27, R33, R180, U1), so nothing here says what it is (assumption log 4). -/
opaque unspecifiedByte : Nat → Nat → Byte

end Sys2Proof.Config
end

