-- ==== Sys2Proof/Syntax.lean ====
section
/-! DEFINITION. The instructions of the core (spec/opcode_table.json: four commands, four beats) and the words that
carry them on the CMD and STRM ports (spec/30_encoding.md R60, R62, R63, R66). -/

namespace Sys2Proof

/-- One constructor per row of the opcode table. -/
inductive Instr where
  /-- INIT (R120). -/
  | init
  /-- UPDATE with its block operand (R121). The operand is a byte list of any length, so that R161 can be said;
  WellFormed asks for 64 bytes, and every decoded word has 64 (assumption log 6). -/
  | update (blk : List Byte)
  /-- FINALIZE (R122). -/
  | finalize
  /-- HASH: the command word alone; its beats follow (R123). -/
  | hash
  /-- DATA beat with the next byte of the stream (R82). -/
  | data (d : Byte)
  /-- END beat; x is the data field the core ignores (R83, R67). -/
  | endBeat (x : Byte)
  /-- FAIL beat with the opaque failure code (R84). -/
  | fail (e : Byte)
  /-- RSVD, the reserved beat kind, with its data field (R85). -/
  | rsvd (x : Byte)
deriving DecidableEq, Repr

/-- Is the instruction a command of the CMD port? The others are beats of the STRM port. -/
def Instr.isCommand : Instr → Bool
  | .init | .update _ | .finalize | .hash => true
  | .data _ | .endBeat _ | .fail _ | .rsvd _ => false

/-- The instruction's row in spec/opcode_table.json. -/
def Instr.mnemonic : Instr → String
  | .init => "INIT"
  | .update _ => "UPDATE"
  | .finalize => "FINALIZE"
  | .hash => "HASH"
  | .data _ => "DATA"
  | .endBeat _ => "END"
  | .fail _ => "FAIL"
  | .rsvd _ => "RSVD"

/-- What the host presents on the CMD port: CMD_OP[7:0] and CMD_BLK[511:0] (R60, R62, R63). -/
structure CmdWord where
  op : BitVec 8
  blk : BitVec 512
deriving DecidableEq, Repr

/-- What the stream presents on the STRM port: STRM_BEAT[9:0] (R60, R66). -/
abbrev BeatWord := BitVec 10

/-- A presented word, with the port it stands on. The port is not encoded in the word: MODE says which of the two
can accept (R48 (d)). -/
inductive PortWord where
  | cmd (c : CmdWord)
  | beat (b : BeatWord)
deriving DecidableEq, Repr

/-- Why the decoder rejects a word. -/
inductive Reject where
  /-- CMD_OP is one of the 252 reserved values (R65). -/
  | reservedCommand (op : Byte)
deriving DecidableEq, Repr

/-- One row of the opcode table: its port (true is CMD_OP, false is STRM_BEAT), match and mask. -/
structure OpRow where
  mnemonic : String
  onCmd : Bool
  mask : Nat
  pattern : Nat
deriving DecidableEq, Repr

end Sys2Proof
end

