-- ==== Sys2Proof/Machine/Operands.lean ====
section
/-! DEFINITION. Operand assembly in one place (spec/30_encoding.md R71) and the byte orders it uses
(spec/00_scope.md R13, spec/20_memory.md R42, R43): nothing is extended, scaled or shifted, and every multi-byte
quantity is big-endian. -/

namespace Sys2Proof.Machine

/-- BE64(b0..b7): b0 is the most significant byte (R13). -/
def be64 (b0 b1 b2 b3 b4 b5 b6 b7 : Byte) : Word :=
  (b0 ++ b1 ++ b2 ++ b3 ++ b4 ++ b5 ++ b6 ++ b7).cast rfl

/-- BE8(v): the 8 bytes v[63:56], ..., v[7:0] in that order (R13). -/
def be8 (v : Word) : Vector Byte 8 :=
  Vector.ofFn fun i => v.extractLsb' (56 - 8 * i.val) 8

/-- BE4(v): the 4 bytes of a 32-bit word, most significant first (R13). -/
def be4 (v : Word32) : Vector Byte 4 :=
  Vector.ofFn fun i => v.extractLsb' (24 - 8 * i.val) 8

/-- WORD(blk, j): the j-th big-endian 64-bit word of a block (R101, R42 (a)). -/
def wordOf (blk : Block) (j : Fin 8) : Word :=
  be64 blk[8 * j.val] blk[8 * j.val + 1] blk[8 * j.val + 2] blk[8 * j.val + 3]
    blk[8 * j.val + 4] blk[8 * j.val + 5] blk[8 * j.val + 6] blk[8 * j.val + 7]

/-- The big-endian number a byte sequence spells. -/
def beNat : List Byte → Nat :=
  List.foldl (fun n b => 256 * n + b.toNat) 0

/-- The block on CMD_BLK: byte i is CMD_BLK[511-8i : 504-8i] (R63). -/
def blockOfPort (p : BitVec 512) : Block :=
  Vector.ofFn fun i => p.extractLsb' (504 - 8 * i.val) 8

/-- The 512 bits that carry 64 bytes on CMD_BLK: their big-endian number (R63). -/
def portOfBytes (bytes : List Byte) : BitVec 512 :=
  BitVec.ofNat 512 (beNat bytes)

/-- A byte sequence as a Block, where it has exactly B = 64 bytes. The Mixer takes nothing else: no truncation and
no padding (R161, U2). -/
def blockOfBytes (bytes : List Byte) : Option Block :=
  if h : bytes.length = 64 then some ⟨bytes.toArray, by simpa using h⟩ else none

/-- STRM_BEAT[9:8], the beat's kind (R66). -/
def beatKind (w : BeatWord) : BitVec 2 :=
  w.extractLsb' 8 2

/-- STRM_BEAT[7:0], the beat's data field, used as is (R66, R71 (b), (d)). -/
def beatData (w : BeatWord) : Byte :=
  w.extractLsb' 0 8

/-- A beat word from its kind and data field (R66). -/
def beatWord (kind : BitVec 2) (d : Byte) : BeatWord :=
  (kind ++ d).cast rfl

/-- BUF[FILL..63] <- 0 on a block buffer: bytes below n stay, the rest become zero (R11, R83). -/
def padFrom (n : Nat) (buf : Block) : Block :=
  buf.mapIdx fun i b => if i < n then b else 0#8

/-- BUF as the n-th hardware reset leaves it: 64 free bytes (R27, R33, R180, U1; assumption log 4). -/
def freeBuf (n : Nat) : Block :=
  Vector.ofFn fun i => Config.unspecifiedByte n i.val

/-- RSP_DIGEST[255:0]: digest byte i at [255-8i : 248-8i] (R68). -/
def digestPort (d : Digest) : BitVec 256 :=
  BitVec.ofNat 256 (beNat d.toList)

/-- RSP_HEX[511:0]: character k at [511-8k : 504-8k] (R68). -/
def hexPort (h : HexString) : BitVec 512 :=
  BitVec.ofNat 512 (beNat h.toList)

end Sys2Proof.Machine
end

