-- ==== Sys2Proof/WellFormed.lean ====
section
/-! DEFINITION. Which instructions the ports can carry: an UPDATE operand has exactly B = 64 bytes "by the width of
the port" (spec/20_memory.md R44, spec/30_encoding.md R63); every other instruction is well formed. -/

namespace Sys2Proof

/-- The check, one line per constructor. -/
def Instr.wf : Instr → Bool
  | .init => true
  | .update blk => blk.length == Config.B
  | .finalize => true
  | .hash => true
  | .data _ => true
  | .endBeat _ => true
  | .fail _ => true
  | .rsvd _ => true

/-- A well-formed instruction. -/
abbrev Instr.WellFormed (i : Instr) : Prop := i.wf = true

end Sys2Proof
end

