-- ==== Sys2Proof/Decode.lean ====
section
/-! DEFINITION. Decoding and encoding of the words on the CMD and STRM ports (spec/30_encoding.md R62 to R67, R70).
Decoding is total: a command word is one of the four commands or is rejected by name (R65), and each of the 1024 beat
words is one of the four beats (R67). -/

namespace Sys2Proof

open Machine (beatKind beatData beatWord blockOfPort portOfBytes)

/-- The decoder of the CMD port: a match on the whole byte (R62). CMD_BLK is used by UPDATE alone. -/
def decodeCmd (c : CmdWord) : Except Reject Instr :=
  if c.op = 0x01#8 then .ok .init
  else if c.op = 0x02#8 then .ok (.update (blockOfPort c.blk).toList)
  else if c.op = 0x03#8 then .ok .finalize
  else if c.op = 0x04#8 then .ok .hash
  else .error (.reservedCommand c.op)

/-- The decoder of the STRM port: the kind is STRM_BEAT[9:8] (R66, R67). -/
def decodeBeat (w : BeatWord) : Instr :=
  if beatKind w = 0#2 then .data (beatData w)
  else if beatKind w = 1#2 then .endBeat (beatData w)
  else if beatKind w = 2#2 then .fail (beatData w)
  else .rsvd (beatData w)

/-- The decoder of a presented word. -/
def decode : PortWord → Except Reject Instr
  | .cmd c => decodeCmd c
  | .beat b => .ok (decodeBeat b)

/-- The word of an instruction, from the tables of R62, R63 and R67. CMD_BLK is driven to 0 where the command ignores
it (DESIGN CHOICE, assumption log 13). -/
def encode : Instr → PortWord
  | .init => .cmd ⟨0x01#8, 0#512⟩
  | .update blk => .cmd ⟨0x02#8, portOfBytes blk⟩
  | .finalize => .cmd ⟨0x03#8, 0#512⟩
  | .hash => .cmd ⟨0x04#8, 0#512⟩
  | .data d => .beat (beatWord 0#2 d)
  | .endBeat x => .beat (beatWord 1#2 x)
  | .fail e => .beat (beatWord 2#2 e)
  | .rsvd x => .beat (beatWord 3#2 x)

/-- The rows of spec/opcode_table.json: mnemonic, port, mask, match. -/
def opRows : List OpRow :=
  [⟨"INIT", true, 0xFF, 0x01⟩, ⟨"UPDATE", true, 0xFF, 0x02⟩, ⟨"FINALIZE", true, 0xFF, 0x03⟩, ⟨"HASH", true, 0xFF, 0x04⟩,
    ⟨"DATA", false, 0x300, 0x000⟩, ⟨"END", false, 0x300, 0x100⟩, ⟨"FAIL", false, 0x300, 0x200⟩,
    ⟨"RSVD", false, 0x300, 0x300⟩]

/-- The rows of the opcode table that a presented word matches. -/
def matchingRows : PortWord → List OpRow
  | .cmd c => opRows.filter fun r => r.onCmd && c.op.toNat &&& r.mask == r.pattern
  | .beat b => opRows.filter fun r => !r.onCmd && b.toNat &&& r.mask == r.pattern

/-- The port word that a row's bits stand for: the table gives a command row one byte and a beat row ten bits (two
whole bytes), so at most 8 bits is a command word (with CMD_BLK = 0) and more is a beat word. A number that does not
fit its word is no word (assumption log 12). -/
def tableWord (nbits w : Nat) : Option PortWord :=
  if nbits ≤ 8 then
    if w < 256 then some (.cmd ⟨BitVec.ofNat 8 w, BitVec.zero 512⟩) else none
  else
    if w < 1024 then some (.beat (BitVec.ofNat 10 w)) else none

/-- The instruction the decoder reads from a row's bits; none where it rejects them. -/
def decodeTableWord (nbits w : Nat) : Option Instr :=
  match tableWord nbits w with
  | none => none
  | some p =>
    match decode p with
    | .ok i => some i
    | .error _ => none

end Sys2Proof
end

