-- ==== Sys2Proof/Machine/Compressor.lean ====
section
/-! DEFINITION. The Compressor (spec/42_compressor.md): XOR, 64-bit modular multiply, diffusion shift. -/

namespace Sys2Proof.Machine

/-- COMPRESS(c, m) (R110): the multiply keeps the low 64 bits (R111 (e)), the shift is logical and is applied to the
product. -/
def compress (c m : Word) : Word :=
  let x1 := c ^^^ m
  let x2 := x1 * Config.P
  x2 ^^^ (x2 >>> Config.S)

/-- PINV, the inverse of the multiplier modulo 2^64 (R114 (f)). -/
def pinv : Word := 0xCE965057AFF6957B#64

/-- The inverse of COMPRESS for a fixed m (R114 (f)). -/
def decompress (y m : Word) : Word :=
  ((y ^^^ (y >>> Config.S)) * pinv) ^^^ m

end Sys2Proof.Machine
end

