-- ==== Sys2Proof/Machine/Finalizer.lean ====
section
/-! DEFINITION. The Finalizer (spec/44_finalizer.md): SHA-256 of the 8 big-endian bytes of CV, and the hexadecimal
form of the digest. FINFN is SHA-256 (R140, D13); its definition R141 to R145 is the spec's, from general knowledge
(G1; assumption log 7). -/

namespace Sys2Proof.Machine

/-- ROTR(x, n) within 32 bits (R142). -/
def rotr (x : Word32) (n : Nat) : Word32 :=
  (x >>> n) ||| (x <<< (32 - n))

/-- Ch(e, f, g) (R142). -/
def shaCh (e f g : Word32) : Word32 :=
  (e &&& f) ^^^ (~~~e &&& g)

/-- Maj(a, b, c) (R142). -/
def shaMaj (a b c : Word32) : Word32 :=
  (a &&& b) ^^^ (a &&& c) ^^^ (b &&& c)

/-- BSIG0 (R142). -/
def bsig0 (a : Word32) : Word32 :=
  rotr a 2 ^^^ rotr a 13 ^^^ rotr a 22

/-- BSIG1 (R142). -/
def bsig1 (e : Word32) : Word32 :=
  rotr e 6 ^^^ rotr e 11 ^^^ rotr e 25

/-- SSIG0 (R142). -/
def ssig0 (x : Word32) : Word32 :=
  rotr x 7 ^^^ rotr x 18 ^^^ (x >>> 3)

/-- SSIG1 (R142). -/
def ssig1 (x : Word32) : Word32 :=
  rotr x 17 ^^^ rotr x 19 ^^^ (x >>> 10)

/-- The eight working variables, also used for the hash value H[0..7] (R143, R145). -/
structure ShaVars where
  a : Word32
  b : Word32
  c : Word32
  d : Word32
  e : Word32
  f : Word32
  g : Word32
  h : Word32
deriving DecidableEq, Repr

/-- H0[0..7] (R143). -/
def shaH0 : ShaVars :=
  ⟨0x6a09e667, 0xbb67ae85, 0x3c6ef372, 0xa54ff53a, 0x510e527f, 0x9b05688c, 0x1f83d9ab, 0x5be0cd19⟩

/-- K[0..63] (R144). -/
def shaK : List Word32 :=
  [0x428a2f98, 0x71374491, 0xb5c0fbcf, 0xe9b5dba5, 0x3956c25b, 0x59f111f1, 0x923f82a4, 0xab1c5ed5] ++
  [0xd807aa98, 0x12835b01, 0x243185be, 0x550c7dc3, 0x72be5d74, 0x80deb1fe, 0x9bdc06a7, 0xc19bf174] ++
  [0xe49b69c1, 0xefbe4786, 0x0fc19dc6, 0x240ca1cc, 0x2de92c6f, 0x4a7484aa, 0x5cb0a9dc, 0x76f988da] ++
  [0x983e5152, 0xa831c66d, 0xb00327c8, 0xbf597fc7, 0xc6e00bf3, 0xd5a79147, 0x06ca6351, 0x14292967] ++
  [0x27b70a85, 0x2e1b2138, 0x4d2c6dfc, 0x53380d13, 0x650a7354, 0x766a0abb, 0x81c2c92e, 0x92722c85] ++
  [0xa2bfe8a1, 0xa81a664b, 0xc24b8b70, 0xc76c51a3, 0xd192e819, 0xd6990624, 0xf40e3585, 0x106aa070] ++
  [0x19a4c116, 0x1e376c08, 0x2748774c, 0x34b0bcb5, 0x391c0cb3, 0x4ed8aa4a, 0x5b9cca4f, 0x682e6ff3] ++
  [0x748f82ee, 0x78a5636f, 0x84c87814, 0x8cc70208, 0x90befffa, 0xa4506ceb, 0xbef9a3f7, 0xc67178f2]

/-- The sixteen message words of the one padded block of an 8-byte message BE8(c) (R141). -/
def shaMessage (c : Word) : List Word32 :=
  [c.extractLsb' 32 32, c.extractLsb' 0 32, 0x80000000#32] ++ List.replicate 12 0#32 ++ [0x40#32]

/-- Extends the schedule by n words. The list holds the newest word first, so W[t-2], W[t-7], W[t-15] and W[t-16] stand
at places 1, 6, 14 and 15 (R145). -/
def shaExtend : Nat → List Word32 → List Word32
  | 0, w => w
  | n + 1, w => shaExtend n ((ssig1 (w.getD 1 0#32) + w.getD 6 0#32 + ssig0 (w.getD 14 0#32) + w.getD 15 0#32) :: w)

/-- W[0..63] (R141, R145). -/
def shaSchedule (c : Word) : List Word32 :=
  (shaExtend 48 (shaMessage c).reverse).reverse

/-- One round: the eight assignments are one simultaneous update (R145). -/
def shaRound (v : ShaVars) (k w : Word32) : ShaVars :=
  let t1 := v.h + bsig1 v.e + shaCh v.e v.f v.g + k + w
  let t2 := bsig0 v.a + shaMaj v.a v.b v.c
  ⟨t1 + t2, v.a, v.b, v.c, v.d + t1, v.e, v.f, v.g⟩

/-- The rounds, one for each pair of K[t] and W[t] (R145). -/
def shaRounds : List Word32 → List Word32 → ShaVars → ShaVars
  | k :: ks, w :: ws, v => shaRounds ks ws (shaRound v k w)
  | [], _, v => v
  | _ :: _, [], v => v

/-- H[0..7] = H0 plus the working variables after the 64 rounds (R145). -/
def shaHash (c : Word) : ShaVars :=
  let v := shaRounds shaK (shaSchedule c) shaH0
  ⟨shaH0.a + v.a, shaH0.b + v.b, shaH0.c + v.c, shaH0.d + v.d,
    shaH0.e + v.e, shaH0.f + v.f, shaH0.g + v.g, shaH0.h + v.h⟩

/-- FIN(c) = SHA256(BE8(c)): BE4(H[0]) to BE4(H[7]) (R140, R145). -/
def fin (c : Word) : Digest :=
  let h := shaHash c
  be4 h.a ++ be4 h.b ++ be4 h.c ++ be4 h.d ++ be4 h.e ++ be4 h.f ++ be4 h.g ++ be4 h.h

/-- DIGIT(n): the ASCII code of a lowercase hexadecimal digit (R147). -/
def hexDigit (n : BitVec 4) : Byte :=
  if n.toNat ≤ 9 then BitVec.ofNat 8 (0x30 + n.toNat) else BitVec.ofNat 8 (0x61 + (n.toNat - 10))

/-- HEX(d): two characters per byte, the high nibble first (R147). -/
def hex (d : Digest) : HexString :=
  Vector.ofFn fun k =>
    if k.val % 2 = 0 then hexDigit (d[k.val / 2].extractLsb' 4 4) else hexDigit (d[k.val / 2].extractLsb' 0 4)

end Sys2Proof.Machine
end

