-- ==== Sys2Proof/Machine/Mixer.lean ====
section
/-! DEFINITION. The Mixer (spec/41_mixer.md): the word-wise rotate and XOR reduction of a block to 64 bits. -/

namespace Sys2Proof.Machine

/-- ROTL1(w) = (w << 1) or (w >> 63) (R100). -/
def rotl1 (w : Word) : Word :=
  (w <<< Config.ROT) ||| (w >>> (64 - Config.ROT))

/-- MIX(blk): the XOR of the eight rotated words (R102, the normative per-word form). A Block has 64 bytes by its
type, so there is no MIX of anything else (R161). -/
def mix (blk : Block) : Word :=
  rotl1 (wordOf blk 0) ^^^ rotl1 (wordOf blk 1) ^^^ rotl1 (wordOf blk 2) ^^^ rotl1 (wordOf blk 3) ^^^
    rotl1 (wordOf blk 4) ^^^ rotl1 (wordOf blk 5) ^^^ rotl1 (wordOf blk 6) ^^^ rotl1 (wordOf blk 7)

/-- The XOR of a block's eight words, all that MIX sees of it (R103, R104 (d)). -/
def wordXor (blk : Block) : Word :=
  wordOf blk 0 ^^^ wordOf blk 1 ^^^ wordOf blk 2 ^^^ wordOf blk 3 ^^^
    wordOf blk 4 ^^^ wordOf blk 5 ^^^ wordOf blk 6 ^^^ wordOf blk 7

end Sys2Proof.Machine
end

