-- ==== Sys2Proof/Machine/State.lean ====
section
/-! DEFINITION. The state of one core as plain data: the five registers of spec/10_state.md R20, and the model's own
fields for the ports of spec/30_encoding.md R60 (what is presented on CMD, STRM and RST, how the host changes it, and
the response just emitted), with the count of hardware resets that picks BUF's free value. -/

namespace Sys2Proof.Machine

/-- PHASE (R23): the source's three states. The value 3 is never held (assumption log 15). -/
inductive Phase where
  | reset
  | accum
  | final
deriving DecidableEq, Repr

/-- MODE (R24): what the core accepts next. The value 3 is never held (assumption log 15). -/
inductive Mode where
  | idle
  | stream
  | halt
deriving DecidableEq, Repr

/-- The status codes other than OK (R69). -/
inductive ErrCode where
  | ioFail
  | blockSize
  | illegalCmd
  | badBeat
deriving DecidableEq, Repr

/-- A response (R14, R68): Ok, OkDigest(d, h) or Err(code, info). -/
inductive Response where
  | ok
  | okDigest (d : Digest) (h : HexString)
  | err (code : ErrCode) (info : Byte)
deriving DecidableEq, Repr

/-- The four exceptions with the value each records (R160 to R163). -/
inductive Exc where
  | ioFail (e : Byte)
  | blockSize
  | illegalCmd (op : Byte)
  | badBeat (x : Byte)
deriving DecidableEq, Repr

/-- A change of the CMD and STRM wires by the host: what a port presents from now on, in place of what it presented
(R50); none leaves the port as it is (log 1). -/
structure WireChange where
  cmd : Option (List CmdWord)
  strm : Option (List BeatWord)
deriving DecidableEq, Repr

/-- One instance of the core. -/
structure State where
  /-- PHASE (R23). -/
  phase : Phase
  /-- MODE (R24). -/
  mode : Mode
  /-- FILL, 0 to 63 (R28). -/
  fill : Fin 64
  /-- CV, the chaining value (R21, R22). -/
  cv : Word
  /-- BUF[0..63] (R27). -/
  buf : Block
  /-- Model's own: the CMD port. The head is presented now, the rest after it; empty is CMD_VALID = 0 (log 1). -/
  cmdPort : List CmdWord
  /-- Model's own: the STRM port, in the same way (log 1). -/
  strmPort : List BeatWord
  /-- Model's own: RST in the steps to come, one entry a step; not asserted after the last (log 1, log 5). -/
  rstPort : List Bool
  /-- Model's own: the changes of the CMD and STRM wires in the steps to come, one entry a step, made before the step
  samples a port; no change after the last (log 1). -/
  wirePort : List WireChange
  /-- Model's own: the RSP port during the transition that led here; none is RSP_VALID = 0. No rule reads it (log 2). -/
  rsp : Option Response
  /-- Model's own: hardware resets taken; it picks BUF's next free value and nothing else (log 4). -/
  resets : Nat
deriving DecidableEq, Repr

/-- The faults of the machine: none. Every exception of the spec is an abort with a response, after which the machine is
in a state the spec gives (R160 to R164, R168), so no step stops (assumption log 16). -/
inductive Fault
deriving DecidableEq, Repr

/-- The refusals of the machine. -/
inductive Refusal where
  /-- Raised by exec's arm for an instruction that has no meaning yet, under its mnemonic; no arm raises it now. Safe. -/
  | notModelled (mnemonic : String)
deriving DecidableEq, Repr

/-- The machine right after hardware reset (R33, R180), with nothing presented on its ports (log 18). BUF holds free
bytes (log 4). -/
def State.reset : State where
  cv := Config.IV
  phase := .reset
  mode := .idle
  fill := 0
  buf := freeBuf 0
  cmdPort := []
  strmPort := []
  rstPort := []
  wirePort := []
  rsp := none
  resets := 0

end Sys2Proof.Machine
end

