-- ==== Sys2Proof/Machine/Ops.lean ====
section
/-! DEFINITION. The named operations the meanings share: what the ports present and how it is accepted, the response,
the fold, the digest, taking an exception, hardware reset. -/

namespace Sys2Proof.Machine

/-- A transition that emits no response: RSP_VALID = 0 (R74). -/
def State.quiet (s : State) : State :=
  { s with rsp := none }

/-- Emits a response in this transition (R68, R74). -/
def State.respond (r : Response) (s : State) : State :=
  { s with rsp := some r }

/-- Initialisation, one of CV's two kinds of writer: CV <- IV and PHASE <- RESET (R22 (a), R120, R123). -/
def State.initialise (s : State) : State :=
  { s with cv := Config.IV, phase := .reset }

/-- A fold, the other kind of writer: CV <- COMPRESS(CV, MIX(blk)) and PHASE <- ACCUM (R22 (b), R121, R82). -/
def State.fold (blk : Block) (s : State) : State :=
  { s with cv := compress s.cv (mix blk), phase := .accum }

/-- The digest of CV as the response, and PHASE <- FINAL; CV is not written (R122, R83, C3). -/
def State.emitDigest (s : State) : State :=
  { s with phase := .final, rsp := some (.okDigest (fin s.cv) (hex (fin s.cv))) }

/-- TAKING AN EXCEPTION: the abort sequences of R160 to R163. Nothing is saved and control goes nowhere (R168); the
whole effect is the registers written here and the Err response. There is no return from an exception: after IoFail,
IllegalCmd and BadBeat the core accepts the next command, after BlockSize only a hardware reset (R169). -/
def State.takeException (x : Exc) (s : State) : State :=
  match x with
  | .ioFail e => { s with fill := 0, mode := .idle, rsp := some (.err .ioFail e) }
  | .blockSize => { s with fill := 0, mode := .halt, rsp := some (.err .blockSize 0x00#8) }
  | .illegalCmd op => { s with rsp := some (.err .illegalCmd op) }
  | .badBeat b => { s with fill := 0, mode := .idle, rsp := some (.err .badBeat b) }

/-- Hands bytes to the Mixer as a block and folds them, then goes on with k; bytes that are not exactly 64 are the
BlockSize exception, with no fold and no value (R161, U2; assumption log 6). -/
def State.foldBytes (bytes : List Byte) (k : State → State) (s : State) : State :=
  match blockOfBytes bytes with
  | some blk => k (s.fold blk)
  | none => s.takeException .blockSize

/-- The effect of a DATA beat (R82): the byte goes to BUF[FILL]; the 64th byte folds the block in the same transition. -/
def State.pushByte (d : Byte) (s : State) : State :=
  let stored := { s with buf := s.buf.set s.fill.val d s.fill.isLt }
  if h : s.fill.val = 63 then
    { stored.fold stored.buf with fill := 0 }
  else
    { stored with fill := ⟨s.fill.val + 1, by omega⟩ }

/-- The first half of an END beat (R83): a partial block is zero-padded and folded; with FILL = 0 there is none. -/
def State.padAndFold (s : State) : State :=
  if s.fill.val = 0 then s
  else
    let padded := { s with buf := padFrom s.fill.val s.buf }
    padded.fold padded.buf

/-- An item the core does not accept in this MODE: it is held, nothing in the core changes and no response is emitted
(R61, R66; assumption log 11). -/
def held (s : State) : Host.Outcome State Fault Refusal :=
  .next s.quiet

/-- A command runs where CMD_READY = 1, that is in MODE = IDLE (R61). -/
def whenIdle (s t : State) : Host.Outcome State Fault Refusal :=
  if s.mode = .idle then .next t else held s

/-- A beat runs where STRM_READY = 1, that is in MODE = STREAM (R66). -/
def whenStream (s t : State) : Host.Outcome State Fault Refusal :=
  if s.mode = .stream then .next t else held s

/-- The effect of hardware reset (R180): accepted in every MODE, no response; what the ports present stays presented
(R167, R181). BUF becomes the next free value (assumption log 4). -/
def State.hardwareReset (s : State) : State :=
  { s with
    cv := Config.IV, phase := .reset, mode := .idle, fill := 0, buf := freeBuf (s.resets + 1),
    rsp := none, resets := s.resets + 1 }

/-- Is RST asserted in the coming step? (R180; assumption log 5) -/
def State.rstAsserted (s : State) : Bool :=
  s.rstPort.headD false

/-- The wires stay as they are. -/
def WireChange.keep : WireChange :=
  ⟨none, none⟩

/-- The change of the CMD and STRM wires before the coming step samples them (R50; assumption log 1). -/
def State.wireChange (s : State) : WireChange :=
  s.wirePort.headD .keep

/-- One step of the inputs passes: the host's change of the wires is made, which replaces what was presented on a port
and not accepted (R50; assumption log 1), and RST moves on (assumption log 5). -/
def State.tick (s : State) : State :=
  { s with
    cmdPort := s.wireChange.cmd.getD s.cmdPort, strmPort := s.wireChange.strm.getD s.strmPort,
    rstPort := s.rstPort.tail, wirePort := s.wirePort.tail }

/-- The word the core can accept now: the command presented in IDLE, the beat presented in STREAM, nothing in HALT
(R24, R48 (d), R61, R66). -/
def State.presented (s : State) : Option PortWord :=
  match s.mode with
  | .idle => s.cmdPort.head?.map .cmd
  | .stream => s.strmPort.head?.map .beat
  | .halt => none

/-- Accepting the presented word samples and consumes it, once (R46, R50): no field holds it afterwards. -/
def State.accept (s : State) : State :=
  match s.mode with
  | .idle => { s with cmdPort := s.cmdPort.tail }
  | .stream => { s with strmPort := s.strmPort.tail }
  | .halt => s

/-- What a word the decoder rejects does when it is accepted: a reserved command word raises IllegalCmd (R65, R162). -/
def rejectWord (r : Reject) (s : State) : Host.Outcome State Fault Refusal :=
  match r with
  | .reservedCommand op => .next (s.takeException (.illegalCmd op))

/-- Presents a word in place of the one presented (R50), in the MODE that accepts it, with RST not asserted and the
wires unchanged in the next step. This is the host's act, not the core's (assumption log 12). -/
def State.present (p : PortWord) (s : State) : State :=
  match p with
  | .cmd c =>
    { s with
      mode := .idle, cmdPort := c :: s.cmdPort.tail, rstPort := false :: s.rstPort, wirePort := .keep :: s.wirePort }
  | .beat b =>
    { s with
      mode := .stream, strmPort := b :: s.strmPort.tail, rstPort := false :: s.rstPort,
      wirePort := .keep :: s.wirePort }

/-- Presents the word that a row's bits stand for; a number that is no word presents nothing (assumption log 12). -/
def State.presentTableWord (nbits w : Nat) (s : State) : State :=
  match tableWord nbits w with
  | some p => s.present p
  | none => s

end Sys2Proof.Machine
end

