-- ==== Sys2Proof/Machine/Beats.lean ====
section
/-! DEFINITION. The four beats of the STRM port (spec/40_blocksource.md R82 to R85). Each is accepted in
MODE = STREAM alone (spec/30_encoding.md R66). -/

namespace Sys2Proof.Machine

/-- DATA (R82): stores the byte, folds the block when it is complete; no response. -/
def execData (d : Byte) (s : State) : Host.Outcome State Fault Refusal :=
  whenStream s (s.pushByte d).quiet

/-- END (R83): pads and folds a partial block, responds with the digest, ends the HASH command. The data field is
ignored (R67, U6). -/
def execEnd (_x : Byte) (s : State) : Host.Outcome State Fault Refusal :=
  whenStream s { s.padAndFold.emitDigest with fill := 0, mode := .idle }

/-- FAIL (R84): raises IoFail with the failure code. -/
def execFail (e : Byte) (s : State) : Host.Outcome State Fault Refusal :=
  whenStream s (s.takeException (.ioFail e))

/-- RSVD (R85): raises BadBeat with the data field. -/
def execRsvd (x : Byte) (s : State) : Host.Outcome State Fault Refusal :=
  whenStream s (s.takeException (.badBeat x))

end Sys2Proof.Machine
end

