-- ==== Sys2Proof/Machine/Commands.lean ====
section
/-! DEFINITION. The four commands of the CMD port (spec/43_hasher_control.md R120 to R123). Each is accepted in
MODE = IDLE alone and in every PHASE (R61). -/

namespace Sys2Proof.Machine

/-- INIT (R120): CV <- IV, PHASE <- RESET, respond Ok. -/
def execInit (s : State) : Host.Outcome State Fault Refusal :=
  whenIdle s (s.initialise.respond .ok)

/-- UPDATE (R121): folds the operand onto CV whatever PHASE is, responds Ok; an operand that is not 64 bytes raises
BlockSize (R161). -/
def execUpdate (blk : List Byte) (s : State) : Host.Outcome State Fault Refusal :=
  whenIdle s (s.foldBytes blk (State.respond .ok))

/-- FINALIZE (R122): responds with the digest of CV; its only register write is PHASE <- FINAL. -/
def execFinalize (s : State) : Host.Outcome State Fault Refusal :=
  whenIdle s s.emitDigest

/-- HASH (R123) at acceptance of the command word: forces Reset, FILL <- 0, MODE <- STREAM; no response yet. -/
def execHash (s : State) : Host.Outcome State Fault Refusal :=
  whenIdle s { s.initialise.quiet with fill := 0, mode := .stream }

end Sys2Proof.Machine
end

