-- ==== Sys2Proof/Machine/Dispatch.lean ====
section
/-! DEFINITION. exec: one arm per instruction of the opcode table. -/

namespace Sys2Proof.Machine

def exec (i : Instr) (s : State) : Host.Outcome State Fault Refusal :=
  match i with
  -- commands
  | .init => Sys2Proof.Machine.execInit s
  | .update blk => Sys2Proof.Machine.execUpdate blk s
  | .finalize => Sys2Proof.Machine.execFinalize s
  | .hash => Sys2Proof.Machine.execHash s
  -- beats
  | .data d => Sys2Proof.Machine.execData d s
  | .endBeat x => Sys2Proof.Machine.execEnd x s
  | .fail e => Sys2Proof.Machine.execFail e s
  | .rsvd x => Sys2Proof.Machine.execRsvd x s

end Sys2Proof.Machine
end

