-- ==== Sys2Proof/Machine/Accept.lean ====
section
/-! DEFINITION. What an accepted word does (spec/30_encoding.md R61, R65, R66), and one transition of the core: a
hardware reset, the acceptance of one presented word, or a wait (spec/00_scope.md R15). -/

namespace Sys2Proof.Machine

/-- Runs an accepted word: a decoded instruction by exec, a rejected word by the exception it raises. -/
def acceptWord (w : PortWord) (s : State) : Host.Outcome State Fault Refusal :=
  match decode w with
  | .ok i => exec i s
  | .error r => rejectWord r s

/-- One transition of the core, on the wires as they stand when it samples them (R50). RST wins over anything presented
and consumes none of it (R167, R180). Otherwise the word that MODE lets the core accept is consumed and run. Where
nothing can be accepted the core waits: no register changes and no response is emitted (R15, R61, R66; assumption
log 3). -/
def transition (s : State) : Host.Outcome State Fault Refusal :=
  if s.rstAsserted then .next s.tick.hardwareReset
  else
    match s.tick.presented with
    | none => held s.tick
    | some w => acceptWord w s.tick.accept

end Sys2Proof.Machine
end

