-- ==== Sys2Proof/Machine/Step.lean ====
section
/-! DEFINITION. The step, and the state whose next step runs a given word. -/

namespace Sys2Proof.Machine

/-- One step of the machine is one transition of the core. -/
def step (s : State) : Host.Outcome State Fault Refusal :=
  transition s

/-- The state in which the very next step accepts and runs the word of a row of the opcode table: the word stands first
on its port and MODE is the one that accepts on that port (assumption log 12). -/
def State.withFetchWord (s : State) (nbits w : Nat) : State :=
  s.presentTableWord nbits w

end Sys2Proof.Machine
end

