-- ==== Sys2Proof/Machine/Instances.lean ====
section
/-! DEFINITION. Several instances of the core (spec/20_memory.md R51, spec/60_exceptions.md R171): each is a complete
state of its own; a schedule says which one takes the next transition (assumption log 17). -/

namespace Sys2Proof.Machine

/-- The state after one step. A step always answers a next state; the other two outcomes leave the state. -/
def State.advance (s : State) : State :=
  match step s with
  | .next t => t
  | .fault _ => s
  | .refused _ => s

/-- Instance k takes one transition; no other instance changes. A number that names no instance changes nothing. -/
def stepInstance (cores : List State) (k : Nat) : List State :=
  cores.modify k State.advance

/-- The instances take transitions in the order of a schedule. -/
def runInstances (cores : List State) (schedule : List Nat) : List State :=
  schedule.foldl stepInstance cores

end Sys2Proof.Machine
end

