-- ==== Sys2Proof/Machine/Stream.lean ====
section
/-! DEFINITION. The whole-stream functions (spec/40_blocksource.md R80, spec/43_hasher_control.md R125): the chunking
BS, the fold of a list of blocks, and the chaining value of a stream. The machine computes them one beat at a time. -/

namespace Sys2Proof.Machine

/-- Block i of a byte sequence: byte t is s[64i + t], or zero beyond the end (R80). -/
def streamBlock (s : List Byte) (i : Nat) : Block :=
  Vector.ofFn fun t => s.getD (64 * i + t.val) 0#8

/-- BS(s): the ceil(n / 64) blocks of a byte sequence, the last one zero-padded (R80). -/
def bs (s : List Byte) : List Block :=
  (List.range ((s.length + 63) / 64)).map (streamBlock s)

/-- fold(c, blocks), first to last (R125). -/
def foldBlocks : Word → List Block → Word
  | c, [] => c
  | c, b :: rest => foldBlocks (compress c (mix b)) rest

/-- cvof(s) = fold(IV, BS(s)) (R125). -/
def cvOf (s : List Byte) : Word :=
  foldBlocks Config.IV (bs s)

end Sys2Proof.Machine
end

