-- ==== Sys2Proof/Machine/Trace.lean ====
section
/-! DEFINITION. The trace syntax and the pseudo-commands of spec/30_encoding.md R72 and R73: the lines, the events they
stand for, which traces are well formed, how a trace is presented to a core, and the text form. -/

namespace Sys2Proof.Machine

/-- A line of a trace (R72). -/
inductive Line where
  | reset
  | init
  | update (blk : Block)
  | finalize
  | hash
  /-- A raw command word, for reserved opcodes. -/
  | cmd (op : Byte)
  | data (d : Byte)
  | endLine
  | fail (e : Byte)
  | rsvd (x : Byte)
deriving DecidableEq, Repr

/-- The word a line presents (R72's encoding column); none for RESET, which is no word. R72 gives a CMD line CMD_OP
alone; CMD_BLK = 0 beside it is the model's choice (assumption log 13), as it is in encode for INIT, FINALIZE and HASH. -/
def Line.word : Line → Option PortWord
  | .reset => none
  | .init => some (encode .init)
  | .update blk => some (encode (.update blk.toList))
  | .finalize => some (encode .finalize)
  | .hash => some (encode .hash)
  | .cmd op => some (.cmd ⟨op, 0#512⟩)
  | .data d => some (encode (.data d))
  | .endLine => some (encode (.endBeat 0x00#8))
  | .fail e => some (encode (.fail e))
  | .rsvd x => some (encode (.rsvd x))

/-- Is the command word reserved (R65)? -/
def reservedOp (op : Byte) : Bool :=
  op == 0x00#8 || decide (5 ≤ op.toNat)

/-- Whether a line may stand here and whether a HASH is open after it; `inHash` says whether one is open before it.
Inside a HASH only beats may stand, and its terminator alone closes it. A RESET there is refused: it abandons the HASH
(R181), so no terminator closes that HASH any more (assumption log 14). A CMD line must name a reserved word
(assumption log 14). -/
def Line.follow (inHash : Bool) : Line → Option Bool
  | .reset => if inHash then none else some false
  | .init => if inHash then none else some false
  | .update _ => if inHash then none else some false
  | .finalize => if inHash then none else some false
  | .hash => if inHash then none else some true
  | .cmd op => if inHash || !reservedOp op then none else some false
  | .data _ => if inHash then some true else none
  | .endLine => if inHash then some false else none
  | .fail _ => if inHash then some false else none
  | .rsvd _ => if inHash then some false else none

/-- A well-formed trace (R72), from a place where a HASH is open or not. -/
def wellFormedFrom : Bool → List Line → Bool
  | inHash, [] => !inHash
  | inHash, l :: ls =>
    match l.follow inHash with
    | none => false
    | some b => wellFormedFrom b ls

/-- A well-formed trace: every beat inside a HASH, every HASH closed by exactly one terminator before the next command
line, no command line in between (R72). -/
def wellFormedTrace (ls : List Line) : Bool :=
  wellFormedFrom false ls

/-- The event of a line, taken alone: a hardware reset, or the acceptance of its word. -/
def Line.effect (s : State) (l : Line) : State :=
  match l.word with
  | none => s.hardwareReset
  | some w =>
    match acceptWord w s with
    | .next t => t
    | .fault _ => s
    | .refused _ => s

/-- The command a line presents, if it is a command line. -/
def Line.command? (l : Line) : Option CmdWord :=
  match l.word with
  | some (.cmd c) => some c
  | some (.beat _) => none
  | none => none

/-- The beat a line presents, if it is a beat line. -/
def Line.beat? (l : Line) : Option BeatWord :=
  match l.word with
  | some (.beat b) => some b
  | some (.cmd _) => none
  | none => none

/-- Presents a whole trace: its commands on CMD, its beats on STRM, its RESET lines as RST in their
steps, and no change of the wires. -/
def State.presentTrace (s : State) (ls : List Line) : State :=
  { s with
    cmdPort := ls.filterMap Line.command?, strmPort := ls.filterMap Line.beat?, rstPort := ls.map (· == .reset),
    wirePort := [] }

/-- HASHB: HASH, one DATA line a byte, END (R73). -/
def hashb (bytes : List Byte) : List Line :=
  .hash :: bytes.map .data ++ [.endLine]

/-- UPDATEZ: UPDATE with the bytes zero-padded to 64; more than 64 bytes have no expansion (R73). -/
def updatez (bytes : List Byte) : Option (List Line) :=
  if bytes.length ≤ 64 then some [.update (streamBlock bytes 0)] else none

/-- HASHINC: INIT, one UPDATE for each block of BS(bytes), FINALIZE (R73). -/
def hashinc (bytes : List Byte) : List Line :=
  .init :: (bs bytes).map .update ++ [.finalize]

/-- Cuts a text at the characters that p names. -/
def cutAt (p : Char → Bool) : List Char → List (List Char)
  | [] => [[]]
  | c :: cs =>
    match p c, cutAt p cs with
    | true, ws => [] :: ws
    | false, [] => [[c]]
    | false, w :: ws => (c :: w) :: ws

/-- A hexadecimal digit, in either case (R72). -/
def hexNibble (c : Char) : Option (BitVec 4) :=
  if 48 ≤ c.toNat && c.toNat ≤ 57 then some (BitVec.ofNat 4 (c.toNat - 48))
  else if 65 ≤ c.toNat && c.toNat ≤ 70 then some (BitVec.ofNat 4 (c.toNat - 55))
  else if 97 ≤ c.toNat && c.toNat ≤ 102 then some (BitVec.ofNat 4 (c.toNat - 87))
  else none

/-- Two digits a byte, the high nibble first (R72); an odd number of digits is no byte sequence. -/
def hexBytes : List Char → Option (List Byte)
  | [] => some []
  | [_] => none
  | a :: b :: cs =>
    match hexNibble a, hexNibble b, hexBytes cs with
    | some hi, some lo, some bytes => some ((hi ++ lo) :: bytes)
    | _, _, _ => none

/-- One byte of two digits, made into a line. -/
def byteLine (mk : Byte → Line) (digits : List Char) : Option (List Line) :=
  match hexBytes digits with
  | some [b] => some [mk b]
  | _ => none

/-- A line with no digits (R72, R73). The pseudo-commands may have none. -/
def parseBare (name : List Char) : Option (List Line) :=
  if name = ['R', 'E', 'S', 'E', 'T'] then some [.reset]
  else if name = ['I', 'N', 'I', 'T'] then some [.init]
  else if name = ['F', 'I', 'N', 'A', 'L', 'I', 'Z', 'E'] then some [.finalize]
  else if name = ['H', 'A', 'S', 'H'] then some [.hash]
  else if name = ['E', 'N', 'D'] then some [.endLine]
  else if name = ['H', 'A', 'S', 'H', 'B'] then some (hashb [])
  else if name = ['H', 'A', 'S', 'H', 'I', 'N', 'C'] then some (hashinc [])
  else if name = ['U', 'P', 'D', 'A', 'T', 'E', 'Z'] then updatez []
  else none

/-- A line with digits (R72, R73). -/
def parseWithDigits (name digits : List Char) : Option (List Line) :=
  if name = ['C', 'M', 'D'] then byteLine .cmd digits
  else if name = ['D', 'A', 'T', 'A'] then byteLine .data digits
  else if name = ['F', 'A', 'I', 'L'] then byteLine .fail digits
  else if name = ['R', 'S', 'V', 'D'] then byteLine .rsvd digits
  else if name = ['U', 'P', 'D', 'A', 'T', 'E'] then
    (hexBytes digits).bind fun bytes => (blockOfBytes bytes).map fun blk => [.update blk]
  else if name = ['U', 'P', 'D', 'A', 'T', 'E', 'Z'] then (hexBytes digits).bind updatez
  else if name = ['H', 'A', 'S', 'H', 'B'] then (hexBytes digits).map hashb
  else if name = ['H', 'A', 'S', 'H', 'I', 'N', 'C'] then (hexBytes digits).map hashinc
  else none

/-- One line of text: a semicolon starts a comment, blanks separate the words, an empty line is no event (R72;
assumption log 14). -/
def parseLine (text : List Char) : Option (List Line) :=
  match (cutAt (fun c => c == ' ' || c == '\t' || c == '\r') (text.takeWhile (· != ';'))).filter (! ·.isEmpty) with
  | [] => some []
  | [name] => parseBare name
  | [name, digits] => parseWithDigits name digits
  | _ :: _ :: _ :: _ => none

/-- A whole text, one event a line (R72). -/
def parseTrace (text : List Char) : Option (List Line) :=
  ((cutAt (· == '\n') text).mapM parseLine).map List.flatten

/-- The text of a program: a trace that is not well formed is refused (R72). -/
def parseProgram (text : List Char) : Option (List Line) :=
  (parseTrace text).filter wellFormedTrace

end Sys2Proof.Machine
end

