-- ==== Sys2Proof/Machine/Flags.lean ====
section
/-! DEFINITION. The core has no flags and no condition codes (spec/10_state.md R26). What it shows in their place are
its output wires: the status wires (R32), the ready signals (spec/30_encoding.md R60, R61, R66) and the RSP port
(R68, R69, R74). All are functions of the state. -/

namespace Sys2Proof.Machine

/-- PHASE[1:0]: RESET = 0, ACCUM = 1, FINAL = 2 (R20, R23). -/
def Phase.bits : Phase → BitVec 2
  | .reset => 0#2
  | .accum => 1#2
  | .final => 2#2

/-- MODE[1:0]: IDLE = 0, STREAM = 1, HALT = 2 (R20, R24). -/
def Mode.bits : Mode → BitVec 2
  | .idle => 0#2
  | .stream => 1#2
  | .halt => 2#2

/-- CV_OUT[63:0] (R32). -/
def State.cvOut (s : State) : Word :=
  s.cv

/-- PHASE_OUT[1:0] (R32). -/
def State.phaseOut (s : State) : BitVec 2 :=
  s.phase.bits

/-- MODE_OUT[1:0] (R32). -/
def State.modeOut (s : State) : BitVec 2 :=
  s.mode.bits

/-- CMD_READY, equal to MODE = IDLE (R60). -/
def State.cmdReady (s : State) : Bool :=
  s.mode == .idle

/-- STRM_READY, equal to MODE = STREAM (R60). -/
def State.strmReady (s : State) : Bool :=
  s.mode == .stream

/-- CMD_VALID: the host presents a command (R60). -/
def State.cmdValid (s : State) : Bool :=
  !s.cmdPort.isEmpty

/-- STRM_VALID: the stream presents a beat (R60). -/
def State.strmValid (s : State) : Bool :=
  !s.strmPort.isEmpty

/-- The numbers of the error codes (R69). -/
def ErrCode.byte : ErrCode → Byte
  | .ioFail => 0x01#8
  | .blockSize => 0x02#8
  | .illegalCmd => 0x03#8
  | .badBeat => 0x04#8

/-- RSP_CODE of a response (R69). -/
def Response.code : Response → Byte
  | .ok => 0x00#8
  | .okDigest _ _ => 0x00#8
  | .err c _ => c.byte

/-- RSP_INFO of a response (R69). -/
def Response.info : Response → Byte
  | .ok => 0x00#8
  | .okDigest _ _ => 0x00#8
  | .err _ i => i

/-- RSP_DV: 1 exactly for OkDigest (R68). -/
def Response.dv : Response → Bool
  | .ok => false
  | .okDigest _ _ => true
  | .err _ _ => false

/-- RSP_DIGEST[255:0] where RSP_DV = 1, absent otherwise (R68, U5). -/
def Response.digestBits : Response → Option (BitVec 256)
  | .ok => none
  | .okDigest d _ => some (digestPort d)
  | .err _ _ => none

/-- RSP_HEX[511:0] where RSP_DV = 1, absent otherwise (R68, U5). -/
def Response.hexBits : Response → Option (BitVec 512)
  | .ok => none
  | .okDigest _ h => some (hexPort h)
  | .err _ _ => none

/-- RSP_VALID: a response was emitted in the transition that led to this state (R60, R74). The other RSP fields are
those of `s.rsp` and mean nothing where there is none (U5). -/
def State.rspValid (s : State) : Bool :=
  s.rsp.isSome

end Sys2Proof.Machine
end

