-- ==== Sys2Proof/Safety.lean ====
section
/-! DEFINITION. The terms the claims use: the invariant of spec/10_state.md R29, runs of several steps and the responses
they emit. -/

namespace Sys2Proof.Machine

/-- The invariants of R29. (i) and (iii) are facts of the types of FILL, PHASE and MODE. -/
structure State.Inv (s : State) : Prop where
  /-- (ii) MODE other than STREAM implies FILL = 0. -/
  fillZero : s.mode ≠ .stream → s.fill = 0
  /-- (iv) PHASE = RESET implies CV = IV. -/
  resetIV : s.phase = .reset → s.cv = Config.IV
  /-- (v) MODE = STREAM implies PHASE is RESET or ACCUM. -/
  streamPhase : s.mode = .stream → s.phase = .reset ∨ s.phase = .accum

/-- n steps of the machine, through the host's interface. -/
abbrev runSteps (n : Nat) (s : State) : Host.Outcome State Fault Refusal :=
  Host.Core.run core n s

/-- RST is not asserted in the next n steps. -/
def State.noReset (s : State) (n : Nat) : Prop :=
  ∀ b ∈ s.rstPort.take n, b = false

/-- The host changes no wire in the next n steps. -/
def State.wiresKept (s : State) (n : Nat) : Prop :=
  ∀ w ∈ s.wirePort.take n, w = .keep

/-- In the next n steps the core meets only what its ports present now, in order: no reset and no change of the
wires. -/
def State.undisturbed (s : State) (n : Nat) : Prop :=
  s.noReset n ∧ s.wiresKept n

/-- The responses emitted by the first n steps, in order (R74: each is emitted once, in one transition). -/
def responses : Nat → State → List Response
  | 0, _ => []
  | n + 1, s =>
    match step s with
    | .next t => t.rsp.toList ++ responses n t
    | .fault _ => []
    | .refused _ => []

/-- Two states agree on every BUF byte that a rule can read: all else is equal, and inside a HASH command the bytes
below FILL are (R27, U1). -/
def SameButStale (s t : State) : Prop :=
  { s with buf := t.buf } = t ∧ (s.mode = .stream → ∀ (i : Nat) (h : i < s.fill.val), s.buf[i] = t.buf[i])

end Sys2Proof.Machine
end

