-- ==== Sys2Proof/Certificates/Slice0/Obligations.lean ====
section
/-! DEFINITION. The statements for the provers. Each docstring says which rule or section of spec/ the statement
formalises. An effect is stated as `exec i s = .next { s with ... }`, which is result, completion and frame in one:
every field not written there is unchanged. `s.tick` is s with one step of the inputs passed: the host's change of the
wires made (R50) and RST moved on; the schedules of these inputs are the model's choice (assumption logs 1 and 5). -/

open Sys2Proof Sys2Proof.Machine

/-! ### Words -/

/-- Sanity: words written out from spec/95_test_vectors.md sections 8.3 and 8.4. -/
def Obligations.SpecWordsDecode : Prop :=
  decodeCmd ⟨0b00000001#8, 0#512⟩ = .ok .init ∧
  decodeCmd ⟨0b00000010#8, 0#512⟩ = .ok (.update (List.replicate 64 0#8)) ∧
  decodeCmd ⟨0b00000011#8, 0#512⟩ = .ok .finalize ∧
  decodeCmd ⟨0b00000100#8, 0#512⟩ = .ok .hash ∧
  decodeCmd ⟨0b00000000#8, 0#512⟩ = .error (.reservedCommand 0x00#8) ∧
  decodeCmd ⟨0b10000001#8, 0#512⟩ = .error (.reservedCommand 0x81#8) ∧
  decodeBeat 0b0001100001#10 = .data 0x61#8 ∧
  decodeBeat 0b0111111111#10 = .endBeat 0xFF#8 ∧
  decodeBeat 0b1000001101#10 = .fail 0x0D#8 ∧
  decodeBeat 0b1101111111#10 = .rsvd 0x7F#8

/-- Every well-formed instruction, every operand at every value, survives encoding and decoding
(30_encoding.md sections 2 and 4). -/
def Obligations.DecodeEncodeAgree : Prop :=
  ∀ i : Instr, i.WellFormed → decode (encode i) = .ok i

/-- The other direction: a decoded word is a well-formed instruction, and encoding it gives back every bit the
instruction uses: all of a beat word, CMD_OP of a command word, and CMD_BLK of UPDATE (30_encoding.md sections 2, 4). -/
def Obligations.EncodeDecodeAgree : Prop :=
  (∀ (w : PortWord) (i : Instr), decode w = .ok i → i.WellFormed) ∧
  (∀ b : BeatWord, encode (decodeBeat b) = .beat b) ∧
  (∀ (c : CmdWord) (i : Instr), decodeCmd c = .ok i →
    ∃ c', encode i = .cmd c' ∧ c'.op = c.op ∧ (c.op = 0x02#8 → c'.blk = c.blk))

/-- R63: byte i of the block is CMD_BLK[511-8i : 504-8i], word j is CMD_BLK[511-64j : 448-64j], the operand is the
big-endian number of the 64 bytes, and no other length can be expressed. -/
def Obligations.BlockOperandPacking : Prop :=
  (∀ p : BitVec 512, decodeCmd ⟨0x02#8, p⟩ = .ok (.update (blockOfPort p).toList) ∧
    (∀ (i : Nat) (h : i < 64), (blockOfPort p)[i] = p.extractLsb' (504 - 8 * i) 8) ∧
    (∀ j : Fin 8, wordOf (blockOfPort p) j = p.extractLsb' (448 - 64 * j.val) 64) ∧
    beNat (blockOfPort p).toList = p.toNat) ∧
  (∀ (c : CmdWord) (blk : List Byte), decodeCmd c = .ok (.update blk) → blk.length = 64)

/-- The ranges of the four beat kinds and their data field (30_encoding.md section 4). -/
def Obligations.BeatWordRanges : Prop :=
  ∀ w : BeatWord,
    (w.toNat < 0x100 → decodeBeat w = .data (BitVec.ofNat 8 w.toNat)) ∧
    (0x100 ≤ w.toNat → w.toNat < 0x200 → decodeBeat w = .endBeat (BitVec.ofNat 8 w.toNat)) ∧
    (0x200 ≤ w.toNat → w.toNat < 0x300 → decodeBeat w = .fail (BitVec.ofNat 8 w.toNat)) ∧
    (0x300 ≤ w.toNat → decodeBeat w = .rsvd (BitVec.ofNat 8 w.toNat))

/-- The decoder follows the opcode table's match and mask: a beat word matches exactly one row, a command word at most
one, and the row is the decoded instruction's (30_encoding.md sections 2 to 4). -/
def Obligations.DecodeFollowsOpcodeTable : Prop :=
  (∀ b : BeatWord, (matchingRows (.beat b)).map OpRow.mnemonic = [(decodeBeat b).mnemonic]) ∧
  (∀ (c : CmdWord) (i : Instr), decodeCmd c = .ok i →
    (matchingRows (.cmd c)).map OpRow.mnemonic = [i.mnemonic]) ∧
  (∀ (c : CmdWord) (r : Reject), decodeCmd c = .error r → matchingRows (.cmd c) = [])

/-! ### The step -/

/-- A step runs the decoded instruction: the word that stands on the port that MODE lets accept is consumed, one step of
the inputs passes (assumption logs 1 and 5), and exec does the rest (30_encoding.md sections 2 and 4). -/
def Obligations.StepRunsDecodedInstr : Prop :=
  (∀ (s : State) (c : CmdWord) (rest : List CmdWord) (i : Instr),
    s.rstAsserted = false → s.mode = .idle → s.tick.cmdPort = c :: rest → decodeCmd c = .ok i →
    step s = exec i { s.tick with cmdPort := rest }) ∧
  (∀ (s : State) (b : BeatWord) (rest : List BeatWord),
    s.rstAsserted = false → s.mode = .stream → s.tick.strmPort = b :: rest →
    step s = exec (decodeBeat b) { s.tick with strmPort := rest })

/-- R65, R162: every CMD_OP but 01 to 04 is reserved, 252 values; accepted in IDLE it writes no register and responds
Err(ILLEGAL_CMD, CMD_OP). (One step of the inputs passes in it, assumption logs 1 and 5.) -/
def Obligations.ReservedCommandIsIllegalCmd : Prop :=
  (∀ c : CmdWord, (∃ r, decodeCmd c = .error r) ↔ (c.op = 0x00#8 ∨ 5 ≤ c.op.toNat)) ∧
  ((List.range 256).filter fun n => n == 0 || decide (5 ≤ n)).length = 252 ∧
  (∀ (s : State) (c : CmdWord) (rest : List CmdWord),
    s.rstAsserted = false → s.mode = .idle → s.tick.cmdPort = c :: rest → (c.op = 0x00#8 ∨ 5 ≤ c.op.toNat) →
    step s = .next { s.tick with cmdPort := rest, rsp := some (.err .illegalCmd c.op) }) ∧
  (∀ op : Byte, (Response.err .illegalCmd op).code = 0x03#8 ∧ (Response.err .illegalCmd op).info = op)

/-- What is presented on a port that cannot accept is held and has no effect: it stays presented unless the host changes
the wires, and another item there would change nothing else (30_encoding.md sections 2 and 4, 20_memory.md section 6;
the host's changes are assumption log 1). -/
def Obligations.UnacceptedItemsAreHeld : Prop :=
  (∀ (s t : State) (q : List CmdWord), s.mode ≠ .idle → step s = .next t → s.rstAsserted = false →
    t.cmdPort = s.wireChange.cmd.getD s.cmdPort ∧
    step { s with cmdPort := q } = .next { t with cmdPort := s.wireChange.cmd.getD q }) ∧
  (∀ (s t : State) (q : List BeatWord), s.mode ≠ .stream → step s = .next t → s.rstAsserted = false →
    t.strmPort = s.wireChange.strm.getD s.strmPort ∧
    step { s with strmPort := q } = .next { t with strmPort := s.wireChange.strm.getD q })

/-- Where nothing can be accepted the core waits and no register changes: no command in IDLE, no beat in STREAM,
anything at all in HALT (10_state.md section 3, 00_scope.md section 5). That the wait is a step, in which one step of
the inputs passes, is the model's choice (assumption logs 3, 1 and 5). -/
def Obligations.CoreWaits : Prop :=
  ∀ s : State, s.rstAsserted = false →
    ((s.mode = .idle ∧ s.tick.cmdPort = []) ∨ (s.mode = .stream ∧ s.tick.strmPort = []) ∨ s.mode = .halt) →
    step s = .next { s.tick with rsp := none }

/-- R180: hardware reset is accepted in every MODE, sets CV, PHASE, MODE and FILL, emits no response, and is the only
event that leaves HALT. R167, R181: it consumes no command and no beat, what the ports present stays presented, and in
MODE = IDLE, where it leads, no beat is accepted. BUF becomes a free value (assumption log 4). That a change of the wires
in the step of a reset is made, and that rstPort and wirePort lose their heads in it, is the model's choice (assumption
logs 5 and 1). -/
def Obligations.HardwareResetEffect : Prop :=
  (∀ s : State, s.rstAsserted = true → ∃ t, step s = .next t ∧
    t.cv = 0xA5A5A5A5A5A5A5A5#64 ∧ t.phase = .reset ∧ t.mode = .idle ∧ t.fill = 0 ∧ t.rsp = none ∧
    t.cmdPort = s.wireChange.cmd.getD s.cmdPort ∧ t.strmPort = s.wireChange.strm.getD s.strmPort ∧
    t.rstPort = s.rstPort.tail ∧ t.wirePort = s.wirePort.tail ∧ t.strmReady = false) ∧
  (∀ s t : State, s.mode = .halt → step s = .next t → t.mode ≠ .halt → s.rstAsserted = true)

/-- R33: the registers after hardware reset, in the reset state and after the reset event. (BUF is unspecified and
nothing is claimed of it.) -/
def Obligations.ResetStateValues : Prop :=
  (∀ s t : State, s.rstAsserted = true → step s = .next t →
    t.cv = 0xA5A5A5A5A5A5A5A5#64 ∧ t.phase = .reset ∧ t.mode = .idle ∧ t.fill = 0) ∧
  State.reset.cv = 0xA5A5A5A5A5A5A5A5#64 ∧ State.reset.phase = .reset ∧ State.reset.mode = .idle ∧
  State.reset.fill = 0 ∧ State.reset.phaseOut = 0#2 ∧ State.reset.modeOut = 0#2

/-- No step and no instruction ever stops the machine. Every operation and every exception of the spec has an effect
(42_compressor.md, 60_exceptions.md section 1). Three clauses of this are the model's choice: that a step with nothing to
accept is a wait that answers a next state (assumption log 3), that exec outside the MODE of its port answers one
(assumption log 11), where U10 and U11 call the item stuck; and that there is no fault (assumption log 16). -/
def Obligations.NothingStopsTheCore : Prop :=
  (∀ s : State, ∃ t, step s = .next t) ∧ (∀ (i : Instr) (s : State), ∃ t, exec i s = .next t)

/-! ### Commands -/

/-- R120: INIT. Any CMD_BLK; any PHASE, any CV; idempotent, and from PHASE = RESET it changes nothing. -/
def Obligations.InitEffect : Prop :=
  (∀ p : BitVec 512, decodeCmd ⟨0x01#8, p⟩ = .ok .init) ∧
  (∀ s : State, s.mode = .idle →
    exec .init s = .next { s with cv := 0xA5A5A5A5A5A5A5A5#64, phase := .reset, rsp := some .ok }) ∧
  (∀ s t : State, s.mode = .idle → exec .init s = .next t → exec .init t = .next t) ∧
  (∀ s : State, s.Inv → s.mode = .idle → s.phase = .reset → exec .init s = .next { s with rsp := some .ok })

/-- R121: UPDATE folds its operand onto whatever CV holds, in every PHASE; an operand that is not 64 bytes is not padded
but raises BlockSize; an all-zero block is not a no-operation; the result can equal the previous CV or IV. -/
def Obligations.UpdateEffect : Prop :=
  (∀ p : BitVec 512, decodeCmd ⟨0x02#8, p⟩ = .ok (.update (blockOfPort p).toList)) ∧
  (∀ (s : State) (blk : Block), s.mode = .idle →
    exec (.update blk.toList) s =
      .next { s with cv := compress s.cv (mix blk), phase := .accum, rsp := some .ok }) ∧
  (∀ (s : State) (blk : List Byte), s.mode = .idle → blk.length ≠ 64 → ∃ t, exec (.update blk) s = .next t ∧
    t.rsp = some (.err .blockSize 0x00#8) ∧ t.cv = s.cv ∧ t.mode = .halt) ∧
  compress Config.IV (mix (Vector.replicate 64 0#8)) = 0x1E1E1D78777779E3#64 ∧
  (∀ blk : Block, (∀ (i : Nat) (h : i < 64), blk[i] = ([0x61#8, 0x62#8, 0x63#8].getD i 0x00#8)) →
    mix blk = 0xC2C4C60000000000#64 ∧ compress Config.IV (mix blk) = 0x5021F77850688CE3#64) ∧
  (∀ c : Word, (∃ blk : Block, compress c (mix blk) = c) ∧ (∃ blk : Block, compress c (mix blk) = Config.IV))

/-- R161: a block that is not 64 bytes is the BlockSize exception, with no fold; HALT accepts nothing and only a hardware
reset leaves it; and no step of the machine ever raises it, because every decoded UPDATE has 64 bytes and BUF has 64 by
its type. -/
def Obligations.BlockSizeException : Prop :=
  (∀ (s : State) (blk : List Byte), s.mode = .idle → blk.length ≠ 64 →
    exec (.update blk) s = .next { s with mode := .halt, fill := 0, rsp := some (.err .blockSize 0x00#8) }) ∧
  (Response.err .blockSize 0x00#8).code = 0x02#8 ∧
  (∀ s t : State, s.mode = .halt → s.rstAsserted = false → step s = .next t →
    t.mode = .halt ∧ t.cmdPort = s.tick.cmdPort ∧ t.strmPort = s.tick.strmPort ∧ t.rsp = none) ∧
  (∀ s t : State, s.mode ≠ .halt → step s = .next t →
    t.mode ≠ .halt ∧ ∀ info, t.rsp ≠ some (.err .blockSize info))

/-- R122: FINALIZE responds with the digest of CV and writes PHASE alone; a second one changes nothing at all; from
PHASE = RESET it returns FIN(IV). -/
def Obligations.FinalizeEffect : Prop :=
  (∀ p : BitVec 512, decodeCmd ⟨0x03#8, p⟩ = .ok .finalize) ∧
  (∀ s : State, s.mode = .idle →
    exec .finalize s = .next { s with phase := .final, rsp := some (.okDigest (fin s.cv) (hex (fin s.cv))) }) ∧
  (∀ s t : State, s.mode = .idle → exec .finalize s = .next t → exec .finalize t = .next t) ∧
  (∀ s : State, s.Inv → s.mode = .idle → s.phase = .reset → ∃ t, exec .finalize s = .next t ∧
    t.rsp = some (.okDigest (fin Config.IV) (hex (fin Config.IV)))) ∧
  digestPort (fin Config.IV) = 0xed0b4dd158a46dc424a660c0e9aaa52558406cb7c106391897bb07fd8dc3ba99#256

/-- HASH at acceptance of the command word (43_hasher_control.md section 1): forces Reset whatever CV and PHASE were,
starts an empty block and opens the stream; no response yet. -/
def Obligations.HashAcceptance : Prop :=
  (∀ p : BitVec 512, decodeCmd ⟨0x04#8, p⟩ = .ok .hash) ∧
  (∀ s : State, s.mode = .idle →
    exec .hash s =
      .next { s with cv := 0xA5A5A5A5A5A5A5A5#64, phase := .reset, fill := 0, mode := .stream, rsp := none })

/-! ### Beats -/

/-- R82: DATA. One byte of BUF is written, at FILL; the 64th byte folds the block in the same transition. -/
def Obligations.DataEffect : Prop :=
  (∀ d : Byte, decodeBeat (0#2 ++ d) = .data d) ∧
  (∀ (s : State) (d : Byte) (f : Fin 64), s.mode = .stream → s.fill.val < 63 → f.val = s.fill.val + 1 →
    exec (.data d) s = .next { s with buf := s.buf.set s.fill.val d s.fill.isLt, fill := f, rsp := none }) ∧
  (∀ (s : State) (d : Byte) (blk : Block), s.mode = .stream → s.fill.val = 63 → blk = s.buf.set 63 d →
    exec (.data d) s =
      .next { s with buf := blk, cv := compress s.cv (mix blk), phase := .accum, fill := 0, rsp := none }) ∧
  (∀ (s t : State) (d : Byte), s.mode = .stream → exec (.data d) s = .next t →
    t.buf[s.fill.val] = d ∧ ∀ (i : Nat) (h : i < 64), i ≠ s.fill.val → t.buf[i] = s.buf[i]) ∧
  compress Config.IV (mix (Vector.replicate 64 0#8)) = 0x1E1E1D78777779E3#64

/-- R83: END. With FILL = 0 no block is folded; with FILL > 0 the bytes from FILL on become zero and the block is
folded; then the digest of the resulting CV is the response and the HASH command is over. The data field is ignored.
The last clause is the rule's example. -/
def Obligations.EndEffect : Prop :=
  (∀ x : Byte, decodeBeat (1#2 ++ x) = .endBeat x) ∧
  (∀ (s : State) (x : Byte), s.mode = .stream → s.fill = 0 →
    exec (.endBeat x) s =
      .next { s with phase := .final, fill := 0, mode := .idle, rsp := some (.okDigest (fin s.cv) (hex (fin s.cv))) }) ∧
  (∀ (s : State) (x : Byte) (blk : Block) (c : Word), s.mode = .stream → s.fill ≠ 0 →
    (∀ (i : Nat) (h : i < 64), blk[i] = if i < s.fill.val then s.buf[i] else 0x00#8) → c = compress s.cv (mix blk) →
    exec (.endBeat x) s =
      .next { s with buf := blk, cv := c, phase := .final, fill := 0, mode := .idle,
                     rsp := some (.okDigest (fin c) (hex (fin c))) }) ∧
  (∀ (s : State) (x : Byte), s.mode = .stream → s.fill = 3 → s.cv = Config.IV →
    s.buf[0] = 0x61#8 → s.buf[1] = 0x62#8 → s.buf[2] = 0x63#8 →
    ∃ t d, exec (.endBeat x) s = .next t ∧ t.cv = 0x5021F77850688CE3#64 ∧ t.rsp = some (.okDigest d (hex d)) ∧
      digestPort d = 0xe9c999a1987586ec73361dca9544cfae0f30517b5c2e0552e4c3df01e6c9ca1c#256)

/-- R84, R160: FAIL takes IoFail: the partial block is dropped, MODE returns to IDLE, the failure code is reported
unchanged with no digest, and CV, PHASE and BUF are unchanged. -/
def Obligations.FailTakesIoFail : Prop :=
  (∀ e : Byte, decodeBeat (2#2 ++ e) = .fail e) ∧
  (∀ (s : State) (e : Byte), s.mode = .stream →
    exec (.fail e) s = .next { s with fill := 0, mode := .idle, rsp := some (.err .ioFail e) }) ∧
  (∀ e : Byte, (Response.err .ioFail e).code = 0x01#8 ∧ (Response.err .ioFail e).info = e ∧
    (Response.err .ioFail e).dv = false) ∧
  (∀ (i : Instr) (s t : State) (e : Byte), exec i s = .next t → t.rsp = some (.err .ioFail e) → i = .fail e)

/-- R85, R163: RSVD takes BadBeat, exactly as FAIL with another code. -/
def Obligations.RsvdTakesBadBeat : Prop :=
  (∀ x : Byte, decodeBeat (3#2 ++ x) = .rsvd x) ∧
  (∀ (s : State) (x : Byte), s.mode = .stream →
    exec (.rsvd x) s = .next { s with fill := 0, mode := .idle, rsp := some (.err .badBeat x) }) ∧
  (∀ x : Byte, (Response.err .badBeat x).code = 0x04#8 ∧ (Response.err .badBeat x).info = x)

/-- An instruction executed where its port cannot accept changes nothing and responds nothing (30_encoding.md
sections 2 and 4; that exec says so is the model's choice, assumption log 11). -/
def Obligations.WrongModeChangesNothing : Prop :=
  ∀ (i : Instr) (s : State), (i.isCommand = true ∧ s.mode ≠ .idle) ∨ (i.isCommand = false ∧ s.mode ≠ .stream) →
    exec i s = .next { s with rsp := none }

/-! ### Mixer, Compressor, Finalizer -/

/-- R100: ROTL1 moves bit 63 to bit 0 and every other bit up by one; the values the rule prints. (That it is a bijection
and distributes over XOR is the spec's own inference and stands in MixIsLinear.) -/
def Obligations.RotateBits : Prop :=
  (∀ w : Word, (rotl1 w).getLsbD 0 = w.getLsbD 63) ∧
  (∀ (w : Word) (i : Nat), 1 ≤ i → i ≤ 63 → (rotl1 w).getLsbD i = w.getLsbD (i - 1)) ∧
  rotl1 0x0#64 = 0x0#64 ∧ rotl1 0xFFFFFFFFFFFFFFFF#64 = 0xFFFFFFFFFFFFFFFF#64 ∧
  rotl1 0x8000000000000000#64 = 0x1#64 ∧ rotl1 0x0123456789ABCDEF#64 = 0x02468ACF13579BDE#64

/-- R101: word j is the big-endian number of bytes 8j to 8j + 7, which for an UPDATE operand is
CMD_BLK[511-64j : 448-64j]; the example of the block 00 01 02 to 3F. -/
def Obligations.WordIsBigEndian : Prop :=
  (∀ (blk : Block) (j : Fin 8),
    (wordOf blk j).toNat = beNat ((List.range 8).map fun k => blk.toList.getD (8 * j.val + k) 0#8)) ∧
  (∀ (p : BitVec 512) (j : Fin 8), wordOf (blockOfPort p) j = p.extractLsb' (448 - 64 * j.val) 64) ∧
  wordOf (Vector.ofFn fun i => BitVec.ofNat 8 i.val) 0 = 0x0001020304050607#64 ∧
  wordOf (Vector.ofFn fun i => BitVec.ofNat 8 i.val) 7 = 0x38393A3B3C3D3E3F#64

/-- R102: MIX is the XOR of the eight rotated words, accumulated in any order (from zero, which the spec derives from the
XOR having no other term); the example of the block 61 62 63 and 61 zero bytes. -/
def Obligations.MixInAnyOrder : Prop :=
  (∀ (blk : Block) (order : List (Fin 8)), order.Perm (List.finRange 8) →
    mix blk = order.foldl (fun acc j => acc ^^^ rotl1 (wordOf blk j)) 0#64) ∧
  (∀ blk : Block, (∀ (i : Nat) (h : i < 64), blk[i] = ([0x61#8, 0x62#8, 0x63#8].getD i 0x00#8)) →
    mix blk = 0xC2C4C60000000000#64)

/-- What 41_mixer.md marks as derived: ROTL1 is a bijection that distributes over XOR; MIX sees a block only through the
XOR of its words and is linear; blocks with the same word-XOR collide; the all-zero block mixes to 0. -/
def Obligations.MixIsLinear : Prop :=
  Function.Bijective rotl1 ∧
  (∀ a b : Word, rotl1 (a ^^^ b) = rotl1 a ^^^ rotl1 b) ∧
  (∀ blk : Block, mix blk = rotl1 (wordXor blk)) ∧
  (∀ a b : Block, mix (Vector.zipWith (· ^^^ ·) a b) = mix a ^^^ mix b) ∧
  (∀ a b : Block, wordXor a = wordXor b ↔ mix a = mix b) ∧
  mix (Vector.replicate 64 0#8) = 0#64

/-- R110: the three steps of COMPRESS on natural numbers, the product reduced modulo 2^64 before the shift. -/
def Obligations.CompressArithmetic : Prop :=
  (∀ (c m : Word) (x1 x2 : Nat), x1 = c.toNat ^^^ m.toNat → x2 = (x1 * 0x100000001B3) % 2 ^ 64 →
    (compress c m).toNat = x2 ^^^ (x2 / 2 ^ 33)) ∧
  compress 0xA5A5A5A5A5A5A5A5#64 0#64 = 0x1E1E1D78777779E3#64

/-- For a fixed MixedValue COMPRESS is a bijection of CV, with the inverse the spec prints, and it depends on its
operands only through their XOR (42_compressor.md, corner cases). -/
def Obligations.CompressIsInvertible : Prop :=
  (∀ c m : Word, decompress (compress c m) m = c) ∧ (∀ y m : Word, compress (decompress y m) m = y) ∧
  (∀ c m : Word, compress c m = compress (c ^^^ m) 0#64)

/-- The bit-level form of step 3 and the shift-and-add form of step 2 (42_compressor.md, derived forms). -/
def Obligations.CompressBitForms : Prop :=
  ∀ (c m x x2 : Word), x = c ^^^ m →
    x2 = (x <<< 40) + (x <<< 8) + (x <<< 7) + (x <<< 5) + (x <<< 4) + (x <<< 1) + x →
    (∀ i : Nat, 31 ≤ i → (compress c m).getLsbD i = x2.getLsbD i) ∧
    (∀ i : Nat, i < 31 → (compress c m).getLsbD i = (x2.getLsbD i ^^ x2.getLsbD (i + 33)))

/-- Sanity: the Finalizer's worked values (44_finalizer.md section 2, 95_test_vectors.md section 5). -/
def Obligations.FinalizerVectors : Prop :=
  digestPort (fin 0xA5A5A5A5A5A5A5A5#64) = 0xed0b4dd158a46dc424a660c0e9aaa52558406cb7c106391897bb07fd8dc3ba99#256 ∧
  digestPort (fin 0#64) = 0xaf5570f5a1810b7af78caf4bc70a660f0df51e42baf91d4de5b2328de0e83dfc#256 ∧
  digestPort (fin 0x00000000000000FF#64) = 0xb8862208a16d307a1e2b3a5df2b44a63126bba7cd20c985c436135ad88d2c735#256 ∧
  digestPort (fin 0xFF00000000000000#64) = 0x159754eeb1b8e153388279fd7cdf7c3224b6052d1b93d07e03beb4375a3a59f7#256

/-- R147: characters 2i and 2i + 1 are the lowercase ASCII digits of the high and the low nibble of digest byte i. -/
def Obligations.HexDigits : Prop :=
  ∀ (d : Digest) (i : Nat) (h : i < 32) (hi lo : Nat), hi = d[i].toNat / 16 → lo = d[i].toNat % 16 →
    (hex d)[2 * i].toNat = (if hi ≤ 9 then 0x30 + hi else 0x61 + (hi - 10)) ∧
    (hex d)[2 * i + 1].toNat = (if lo ≤ 9 then 0x30 + lo else 0x61 + (lo - 10))

/-- R68: RSP_DV is 1 exactly for OkDigest; then RSP_DIGEST and RSP_HEX carry byte i at [255-8i : 248-8i] and character k
at [511-8k : 504-8k]; otherwise they are absent. Code and info of the three forms of a response. -/
def Obligations.ResponseRecord : Prop :=
  (∀ r : Response, r.dv = true ↔ ∃ d h, r = .okDigest d h) ∧
  (∀ r : Response, r.dv = false → r.digestBits = none ∧ r.hexBits = none) ∧
  (∀ (d : Digest) (h : HexString), ∃ D H,
    (Response.okDigest d h).digestBits = some D ∧ (Response.okDigest d h).hexBits = some H ∧
    (∀ (i : Nat) (hi : i < 32), D.extractLsb' (248 - 8 * i) 8 = d[i]) ∧
    (∀ (k : Nat) (hk : k < 64), H.extractLsb' (504 - 8 * k) 8 = h[k])) ∧
  (∀ (d : Digest) (h : HexString), (Response.okDigest d h).code = 0x00#8 ∧ (Response.okDigest d h).info = 0x00#8) ∧
  Response.ok.code = 0x00#8 ∧ Response.ok.info = 0x00#8 ∧
  (∀ (c : ErrCode) (i : Byte), (Response.err c i).code = c.byte ∧ (Response.err c i).info = i)

/-- R69: the code, the info and the digest flag of every response a step emits, by the word that was accepted. No other
code is emitted; BLOCK_SIZE, which no step emits, has the code 02 and the info 00. -/
def Obligations.EmittedCodes : Prop :=
  (∀ (s t : State) (r : Response), step s = .next t → t.rsp = some r → ∃ w, s.tick.presented = some w ∧
    ((r.code = 0x00#8 ∧ r.info = 0x00#8 ∧ r.dv = false ∧ (decode w = .ok .init ∨ ∃ blk, decode w = .ok (.update blk))) ∨
     (r.code = 0x00#8 ∧ r.info = 0x00#8 ∧ r.dv = true ∧ (decode w = .ok .finalize ∨ ∃ x, decode w = .ok (.endBeat x))) ∨
     (r.code = 0x01#8 ∧ r.dv = false ∧ decode w = .ok (.fail r.info)) ∨
     (r.code = 0x03#8 ∧ r.dv = false ∧ decode w = .error (.reservedCommand r.info)) ∨
     (r.code = 0x04#8 ∧ r.dv = false ∧ decode w = .ok (.rsvd r.info)))) ∧
  (∀ (s t : State) (blk : List Byte) (r : Response), s.mode = .idle → blk.length ≠ 64 → exec (.update blk) s = .next t →
    t.rsp = some r → r.code = 0x02#8 ∧ r.info = 0x00#8 ∧ r.dv = false)

/-! ### Rules over all instructions -/

/-- R74: a response is emitted by every accepted command word but HASH, reserved ones included, and by every terminator
beat; by nothing else: not at acceptance of HASH, not by a DATA beat, not by a reset and not by a wait. It is not stored:
no later transition reads it. -/
def Obligations.ResponseExactlyWhenDue : Prop :=
  (∀ s t : State, step s = .next t →
    (t.rsp.isSome = true ↔ s.rstAsserted = false ∧
      ∃ w, s.tick.presented = some w ∧ decode w ≠ .ok .hash ∧ ∀ d, decode w ≠ .ok (.data d))) ∧
  (∀ (s : State) (r : Option Response), step { s with rsp := r } = step s)

/-- R22: CV has two kinds of writer and no third. Where a step changes CV, it is a hardware reset, INIT or HASH, and
writes IV; or it is UPDATE, a DATA beat that completes a block or an END beat with a partial block, and writes the fold
of that block. -/
def Obligations.WritersOfCV : Prop :=
  ∀ s t : State, step s = .next t → t.cv ≠ s.cv →
    (s.rstAsserted = true ∧ t.cv = Config.IV) ∨
    (∃ w i, s.rstAsserted = false ∧ s.tick.presented = some w ∧ decode w = .ok i ∧
      ((i = .init ∧ t.cv = Config.IV) ∨ (i = .hash ∧ t.cv = Config.IV) ∨
       (∃ blk : Block, i = .update blk.toList ∧ t.cv = compress s.cv (mix blk)) ∨
       (∃ d, i = .data d ∧ s.fill.val = 63 ∧ t.cv = compress s.cv (mix (s.buf.set 63 d))) ∨
       (∃ x, i = .endBeat x ∧ s.fill ≠ 0 ∧ t.cv = compress s.cv (mix t.buf) ∧
         ∀ (k : Nat) (h : k < 64), t.buf[k] = if k < s.fill.val then s.buf[k] else 0x00#8)))

/-- MODE moves only as the transition table says (43_hasher_control.md section 3): into STREAM by HASH alone, out of
STREAM by END, FAIL, RSVD or a reset alone, out of HALT by a reset alone, into HALT by nothing. -/
def Obligations.ModeTransitions : Prop :=
  ∀ s t : State, step s = .next t → t.mode ≠ s.mode →
    (s.rstAsserted = true ∧ t.mode = .idle) ∨
    (∃ c, s.mode = .idle ∧ s.tick.cmdPort.head? = some c ∧ decodeCmd c = .ok .hash ∧ t.mode = .stream) ∨
    (∃ b, s.mode = .stream ∧ s.tick.strmPort.head? = some b ∧ t.mode = .idle ∧
      ((∃ x, decodeBeat b = .endBeat x) ∨ (∃ e, decodeBeat b = .fail e) ∨ (∃ x, decodeBeat b = .rsvd x)))

/-- R35: PHASE influences no computed value and no acceptance: with any other PHASE the step gives the same state but
for PHASE. -/
def Obligations.PhaseIsInert : Prop :=
  ∀ (s t : State) (p : Phase), step s = .next t →
    ∃ u, step { s with phase := p } = .next u ∧ { u with phase := t.phase } = t

/-- BUF bytes not written since FILL was last 0 are read by no rule: states that differ only there step to states that
differ only there, with the same response (10_state.md section 5, 43_hasher_control.md section 4). -/
def Obligations.StaleBufIsInert : Prop :=
  ∀ s t s' : State, SameButStale s t → step s = .next s' → ∃ t', step t = .next t' ∧ SameButStale s' t'

/-- The invariants of R29 are kept by every step and by every instruction. -/
def Obligations.InvariantKept : Prop :=
  (∀ s t : State, s.Inv → step s = .next t → t.Inv) ∧ (∀ (i : Instr) (s t : State), s.Inv → exec i s = .next t → t.Inv)

/-- The invariants hold at reset (10_state.md section 5). -/
def Obligations.InvariantAtReset : Prop :=
  State.reset.Inv

/-- The status wires show the registers with their codes, the ready signals follow MODE, and at most one port can
accept (10_state.md sections 1, 3 and 6, 30_encoding.md section 1, 20_memory.md section 6). That PHASE_OUT and MODE_OUT
are never 3 is the spec's own inference ("never written by any rule, so it is never held") and holds here by the types of
PHASE and MODE (assumption log 15). -/
def Obligations.WiresShowRegisters : Prop :=
  ∀ s : State, s.cvOut = s.cv ∧ s.phaseOut ≠ 3#2 ∧ s.modeOut ≠ 3#2 ∧
    (s.phaseOut = 0#2 ↔ s.phase = .reset) ∧ (s.phaseOut = 1#2 ↔ s.phase = .accum) ∧
    (s.modeOut = 0#2 ↔ s.cmdReady = true) ∧ (s.modeOut = 1#2 ↔ s.strmReady = true) ∧
    ¬(s.cmdReady = true ∧ s.strmReady = true)

/-! ### Streams -/

/-- R80: BS cuts n bytes into ceil(n / 64) blocks; byte t of block i is byte 64i + t, or zero beyond the end. -/
def Obligations.ChunkingFunction : Prop :=
  ∀ s : List Byte, (bs s).length = (s.length + 63) / 64 ∧
    ∀ (i : Nat) (hi : i < (bs s).length) (t : Nat) (ht : t < 64),
      ((bs s)[i])[t] = if h : 64 * i + t < s.length then s[64 * i + t] else 0x00#8

/-- Padding collisions: zero bytes that do not pass the next multiple of 64 change neither the blocks nor the chaining
value of a stream that is not empty (70_reset_and_hazards.md section 4). -/
def Obligations.PaddingCollision : Prop :=
  ∀ (s : List Byte) (z : Nat), s ≠ [] → (s.length + 63) / 64 = (s.length + z + 63) / 64 →
    bs (s ++ List.replicate z 0x00#8) = bs s ∧ cvOf (s ++ List.replicate z 0x00#8) = cvOf s

/-- The state inside a HASH command after n DATA beats (40_blocksource.md section 3): FILL, BUF below FILL, CV, PHASE
and MODE are what BS and fold say of the bytes delivered, and no command was consumed. -/
def Obligations.StateAfterPrefix : Prop :=
  ∀ (s : State) (bytes : List Byte) (rest : List BeatWord),
    s.mode = .stream → s.cv = Config.IV → s.phase = .reset → s.fill = 0 →
    s.strmPort = bytes.map (beatWord 0#2) ++ rest → s.undisturbed bytes.length →
    ∃ t, runSteps bytes.length s = .next t ∧ t.fill.val = bytes.length % 64 ∧
      (∀ k : Nat, k < bytes.length % 64 → t.buf.toList.getD k 0#8 = bytes.getD (64 * (bytes.length / 64) + k) 0#8) ∧
      t.cv = foldBlocks Config.IV ((bs bytes).take (bytes.length / 64)) ∧
      t.phase = (if bytes.length / 64 = 0 then .reset else .accum) ∧ t.mode = .stream ∧
      t.strmPort = rest ∧ t.cmdPort = s.cmdPort

/-- The whole-stream command (43_hasher_control.md section 2): from any state with MODE = IDLE, HASH over n bytes and an
END beat ends after n + 2 steps with the chaining value of the stream and its digest as the response. Neither depends
on the state before, so an instance can be reused. -/
def Obligations.HashOfStream : Prop :=
  ∀ (s : State) (p : BitVec 512) (bytes : List Byte) (x : Byte) (cmds : List CmdWord) (rest : List BeatWord),
    s.mode = .idle → s.cmdPort = ⟨0x04#8, p⟩ :: cmds →
    s.strmPort = bytes.map (beatWord 0#2) ++ beatWord 1#2 x :: rest → s.undisturbed (bytes.length + 2) →
    ∃ t, runSteps (bytes.length + 2) s = .next t ∧ t.cv = cvOf bytes ∧ t.phase = .final ∧ t.mode = .idle ∧
      t.fill = 0 ∧ t.rsp = some (.okDigest (fin (cvOf bytes)) (hex (fin (cvOf bytes)))) ∧
      t.cmdPort = cmds ∧ t.strmPort = rest ∧
      responses (bytes.length + 2) s = [.okDigest (fin (cvOf bytes)) (hex (fin (cvOf bytes)))]

/-- A HASH whose stream fails after n bytes (60_exceptions.md section 1, 40_blocksource.md section 2): the blocks
completed before the failure stay folded, the rest is dropped, and the one response is the failure code. -/
def Obligations.HashOfFailingStream : Prop :=
  ∀ (s : State) (p : BitVec 512) (bytes : List Byte) (e : Byte) (cmds : List CmdWord) (rest : List BeatWord),
    s.mode = .idle → s.cmdPort = ⟨0x04#8, p⟩ :: cmds →
    s.strmPort = bytes.map (beatWord 0#2) ++ beatWord 2#2 e :: rest → s.undisturbed (bytes.length + 2) →
    ∃ t, runSteps (bytes.length + 2) s = .next t ∧
      t.cv = foldBlocks Config.IV ((bs bytes).take (bytes.length / 64)) ∧
      t.phase = (if bytes.length / 64 = 0 then .reset else .accum) ∧ t.mode = .idle ∧ t.fill = 0 ∧
      responses (bytes.length + 2) s = [.err .ioFail e]

/-- Incremental equivalence (43_hasher_control.md section 4): from MODE = IDLE and CV = IV, one UPDATE for each block of
BS(s) and then FINALIZE end with the chaining value and the digest of HASH over s. -/
def Obligations.IncrementalEquivalence : Prop :=
  ∀ (s : State) (bytes : List Byte) (p : BitVec 512) (cmds : List CmdWord),
    s.mode = .idle → s.cv = Config.IV →
    s.cmdPort = (bs bytes).map (fun b => ⟨0x02#8, portOfBytes b.toList⟩) ++ ⟨0x03#8, p⟩ :: cmds →
    s.undisturbed ((bs bytes).length + 1) →
    ∃ t, runSteps ((bs bytes).length + 1) s = .next t ∧ t.cv = cvOf bytes ∧ t.phase = .final ∧ t.mode = .idle ∧
      t.rsp = some (.okDigest (fin (cvOf bytes)) (hex (fin (cvOf bytes)))) ∧ t.cmdPort = cmds

/-- A HASH that is given no terminator never ends (70_reset_and_hazards.md section 3): while only DATA beats come, RST is
not asserted and the host changes no wire, the core stays in STREAM, responds nothing and holds every command. -/
def Obligations.HashWithoutTerminatorHangs : Prop :=
  ∀ (s : State) (n : Nat), s.mode = .stream → s.undisturbed n → (∀ b ∈ s.strmPort.take n, b.toNat < 0x100) →
    ∃ t, runSteps n s = .next t ∧ t.mode = .stream ∧ t.cmdPort = s.cmdPort ∧ responses n s = []

/-! ### Traces and instances -/

/-- A well-formed trace (30_encoding.md section 6) is accepted line by line: presented to an idle core it takes one step
a line, nothing stays presented, and the registers and the last response are those of the lines' events taken one after
the other. That a RESET line is RST in its own step is the model's choice (assumption log 5). -/
def Obligations.WellFormedTraceRuns : Prop :=
  ∀ (s : State) (ls : List Line), s.mode = .idle → wellFormedTrace ls = true →
    runSteps ls.length (s.presentTrace ls) =
      .next (ls.foldl Line.effect { s with cmdPort := [], strmPort := [], rstPort := [], wirePort := [] })

/-- Every accepted command produces exactly one response, and nothing else produces one (30_encoding.md section 5): a
well-formed trace emits as many responses as it has command lines, its RESET lines none. -/
def Obligations.OneResponsePerCommand : Prop :=
  ∀ (s : State) (ls : List Line), s.mode = .idle → wellFormedTrace ls = true →
    (responses ls.length (s.presentTrace ls)).length = (ls.filterMap Line.command?).length

/-- R73's pseudo-commands: their expansions are well-formed traces, and HASHB x and HASHINC x end in the same CV, PHASE
and response (30_encoding.md section 6). -/
def Obligations.PseudoCommandsAgree : Prop :=
  (∀ bytes : List Byte, wellFormedTrace (hashb bytes) = true ∧ wellFormedTrace (hashinc bytes) = true) ∧
  (∀ (bytes : List Byte) (ls : List Line), updatez bytes = some ls → wellFormedTrace ls = true) ∧
  (∀ (s : State) (bytes : List Byte), s.mode = .idle →
    ∃ t u, runSteps (hashb bytes).length (s.presentTrace (hashb bytes)) = .next t ∧
      runSteps (hashinc bytes).length (s.presentTrace (hashinc bytes)) = .next u ∧
      t.cv = u.cv ∧ t.phase = u.phase ∧ t.mode = u.mode ∧ t.rsp = u.rsp)

/-- Instances share nothing (20_memory.md section 6): under any schedule each instance ends where it ends when it takes
its own steps alone. -/
def Obligations.InstancesAreIndependent : Prop :=
  ∀ (cores : List State) (schedule : List Nat) (k : Nat) (s : State), cores[k]? = some s →
    ∃ t, runSteps (schedule.count k) s = .next t ∧ (runInstances cores schedule)[k]? = some t

/-! ### The wires -/

/-- R50: a command word with its block operand, and a beat, are sampled once, in the transition that accepts them. What
the host puts on the wires before acceptance replaces what stood there, which then has no effect; a change after
acceptance changes nothing of what was accepted. R61, R66, R167: a change on a port that accepts nothing, in another MODE
or in a reset, changes that port alone. Two things are the model's choice: that the host's changes are a list with one
entry a step (assumption log 1), and that a change in the step of a reset is made (assumption log 5). -/
def Obligations.WiresSampledAtAcceptance : Prop :=
  (∀ (s : State) (c : CmdWord) (rest old : List CmdWord),
    s.rstAsserted = false → s.mode = .idle → s.wireChange.cmd = some (c :: rest) →
    step s = acceptWord (.cmd c) { s.tick with cmdPort := rest } ∧ step { s with cmdPort := old } = step s) ∧
  (∀ (s : State) (b : BeatWord) (rest old : List BeatWord),
    s.rstAsserted = false → s.mode = .stream → s.wireChange.strm = some (b :: rest) →
    step s = acceptWord (.beat b) { s.tick with strmPort := rest } ∧ step { s with strmPort := old } = step s) ∧
  (∀ (s t : State) (now : WireChange) (later other : List WireChange),
    s.wirePort = now :: later → step s = .next t →
    step { s with wirePort := now :: other } = .next { t with wirePort := other }) ∧
  (∀ (s t : State) (now : WireChange) (later : List WireChange) (q : Option (List CmdWord)),
    s.wirePort = now :: later → (s.mode ≠ .idle ∨ s.rstAsserted = true) → step s = .next t →
    step { s with wirePort := { now with cmd := q } :: later } = .next { t with cmdPort := q.getD s.cmdPort }) ∧
  (∀ (s t : State) (now : WireChange) (later : List WireChange) (q : Option (List BeatWord)),
    s.wirePort = now :: later → (s.mode ≠ .stream ∨ s.rstAsserted = true) → step s = .next t →
    step { s with wirePort := { now with strm := q } :: later } = .next { t with strmPort := q.getD s.strmPort })

/-! ### Which traces are programs -/

/-- Well-formed traces (30_encoding.md section 6) are the sequences of these pieces and no others: a RESET line, a command
line other than HASH, and a HASH line with its DATA lines and exactly one terminator. The text of a program is a text
whose lines are such a trace. That a RESET line inside a HASH is refused although a terminator follows it, and a CMD line
with a word that is not reserved, is DEDUCED (assumption log 14). -/
def Obligations.WellFormedTraceShape : Prop :=
  (∀ ls : List Line, wellFormedTrace ls = true ↔ ∃ pieces : List (List Line), ls = pieces.flatten ∧ ∀ p ∈ pieces,
    (p = [.reset] ∨ p = [.init] ∨ (∃ blk, p = [.update blk]) ∨ p = [.finalize] ∨
      ∃ op : Byte, p = [.cmd op] ∧ (op = 0x00#8 ∨ 5 ≤ op.toNat)) ∨
    (∃ (bytes : List Byte) (last : Line), p = .hash :: bytes.map .data ++ [last] ∧
      (last = .endLine ∨ (∃ e, last = .fail e) ∨ ∃ x, last = .rsvd x))) ∧
  (∀ (text : List Char) (ls : List Line),
    parseProgram text = some ls ↔ parseTrace text = some ls ∧ wellFormedTrace ls = true)

/-- A HASH that a hardware reset abandons (70_reset_and_hazards.md section 1): the lines before it and after it run as
they would, and no response is ever emitted for it. Such a sequence of events is no well-formed trace (30_encoding.md
section 6), but the core accepts it. That RESET is RST in its own step is the model's choice (assumption log 5). -/
def Obligations.AbandonedHashHasNoResponse : Prop :=
  ∀ (s : State) (pre post ls : List Line) (bytes : List Byte), s.mode = .idle →
    wellFormedTrace pre = true → wellFormedTrace post = true →
    ls = pre ++ .hash :: bytes.map .data ++ .reset :: post →
    wellFormedTrace ls = false ∧
    runSteps ls.length (s.presentTrace ls) =
      .next (ls.foldl Line.effect { s with cmdPort := [], strmPort := [], rstPort := [], wirePort := [] }) ∧
    (responses ls.length (s.presentTrace ls)).length =
      (pre.filterMap Line.command?).length + (post.filterMap Line.command?).length
end

