-- ==== Sys2Proof/Laws/Bytes.lean ====
section
/-! SUPPORT. Byte orders, the packing of blocks and beat words, and what the decoders answer. -/

namespace Sys2Proof.Machine

/-! ### Beat words -/

theorem beatKind_beatWord (k : BitVec 2) (d : Byte) : beatKind (beatWord k d) = k := by
  unfold beatKind beatWord
  apply BitVec.eq_of_getLsbD_eq
  intro i hi
  simp only [BitVec.getLsbD_extractLsb', BitVec.getLsbD_cast, BitVec.getLsbD_append]
  simp [hi]

theorem beatData_beatWord (k : BitVec 2) (d : Byte) : beatData (beatWord k d) = d := by
  unfold beatData beatWord
  apply BitVec.eq_of_getLsbD_eq
  intro i hi
  simp only [BitVec.getLsbD_extractLsb', BitVec.getLsbD_cast, BitVec.getLsbD_append]
  simp [hi]

theorem beatWord_kind_data (w : BeatWord) : beatWord (beatKind w) (beatData w) = w := by
  unfold beatKind beatData beatWord
  apply BitVec.eq_of_getLsbD_eq
  intro i hi
  simp only [BitVec.getLsbD_extractLsb', BitVec.getLsbD_cast, BitVec.getLsbD_append]
  split
  · simp [*]
  · have h8 : 8 + (i - 8) = i := by omega
    have h2 : i - 8 < 2 := by omega
    simp [h8, h2]

theorem beatWord_toNat_split (w : BeatWord) : w.toNat = 256 * (beatKind w).toNat + (beatData w).toNat := by
  have := w.isLt
  simp [beatKind, beatData, Nat.shiftRight_eq_div_pow]
  omega

theorem beatData_eq_ofNat (w : BeatWord) : beatData w = BitVec.ofNat 8 w.toNat := by
  apply BitVec.eq_of_toNat_eq
  simp [beatData]

theorem kind_cases : ∀ k : BitVec 2, k = 0#2 ∨ k = 1#2 ∨ k = 2#2 ∨ k = 3#2 := by
  decide

/-! ### Big-endian numbers -/

theorem beNat_concat (l : List Byte) (b : Byte) : beNat (l ++ [b]) = 256 * beNat l + b.toNat := by
  simp [beNat]

theorem beNat_lt (l : List Byte) : beNat l < 256 ^ l.length := by
  induction l using List.reverseRecOn with
  | nil => simp [beNat]
  | append_singleton l b ih =>
    rw [beNat_concat]
    have := b.isLt
    simp [pow_succ]
    omega

/-- Byte i of a big-endian number. -/
theorem beNat_byte (l : List Byte) (i : Nat) (h : i < l.length) :
    beNat l / 256 ^ (l.length - 1 - i) % 256 = (l[i]).toNat := by
  induction l using List.reverseRecOn generalizing i with
  | nil => simp at h
  | append_singleton l b ih =>
    rw [beNat_concat]
    have hb := b.isLt
    simp at h
    by_cases hi : i = l.length
    · subst hi; simp; omega
    · have hlt : i < l.length := by omega
      have h2 : (l ++ [b]).length - 1 - i = (l.length - 1 - i) + 1 := by simp; omega
      have h3 : (256 * beNat l + b.toNat) / 256 = beNat l := by omega
      rw [h2, pow_succ', ← Nat.div_div_eq_div_mul, h3, ih i hlt]
      simp [List.getElem_append_left, hlt]

theorem beNat_inj {l m : List Byte} (hl : l.length = m.length) (h : beNat l = beNat m) : l = m := by
  apply List.ext_getElem hl
  intro i h1 h2
  apply BitVec.eq_of_toNat_eq
  rw [← beNat_byte, ← beNat_byte, h, hl]

/-- Byte i of a port that carries the bytes l, from the top of an n-bit port. -/
theorem port_byte (n : Nat) (l : List Byte) (hl : 8 * l.length = n) (i : Nat) (h : i < l.length) :
    (BitVec.ofNat n (beNat l)).extractLsb' (n - 8 - 8 * i) 8 = l[i] := by
  have pow_bytes : ∀ k, 256 ^ k = 2 ^ (8 * k) := fun k => by rw [pow_mul]; norm_num
  apply BitVec.eq_of_toNat_eq
  have hlt := beNat_lt l
  rw [pow_bytes, hl] at hlt
  rw [BitVec.extractLsb'_toNat, BitVec.toNat_ofNat, Nat.mod_eq_of_lt hlt, Nat.shiftRight_eq_div_pow, ← beNat_byte l i h]
  have : n - 8 - 8 * i = 8 * (l.length - 1 - i) := by omega
  rw [this, pow_bytes]

/-! ### Blocks -/

theorem blockOfPort_portOfBytes {l : List Byte} (h : l.length = 64) : (blockOfPort (portOfBytes l)).toList = l := by
  apply List.ext_getElem
  · simp [h]
  · intro i h1 h2
    have := port_byte 512 l (by omega) i h2
    simp [blockOfPort, portOfBytes] at *
    exact this

theorem blockOfPort_portOfBytes_toList (b : Block) : blockOfPort (portOfBytes b.toList) = b :=
  Vector.toList_inj.1 (blockOfPort_portOfBytes (by simp))

theorem blockOfBytes_toList (blk : Block) : blockOfBytes blk.toList = some blk := by
  have h : (blk.toList).length = 64 := by simp
  unfold blockOfBytes
  rw [dif_pos h]
  congr 1

theorem blockOfBytes_none {l : List Byte} (h : l.length ≠ 64) : blockOfBytes l = none := by
  simp [blockOfBytes, h]

theorem exists_block {l : List Byte} (h : l.length = 64) : ∃ blk : Block, l = blk.toList :=
  ⟨⟨l.toArray, by simpa using h⟩, by simp⟩

theorem getD_toList (blk : Block) (i : Nat) (h : i < 64) : blk.toList.getD i 0#8 = blk[i] := by
  simp [List.getD, h]

theorem padFrom_getElem (n : Nat) (b : Block) (i : Nat) (h : i < 64) :
    (padFrom n b)[i] = if i < n then b[i] else 0#8 := by
  simp [padFrom]

/-- BE64 as a number. -/
theorem be64_toNat (b0 b1 b2 b3 b4 b5 b6 b7 : Byte) :
    (be64 b0 b1 b2 b3 b4 b5 b6 b7).toNat = beNat [b0, b1, b2, b3, b4, b5, b6, b7] := by
  simp only [be64, BitVec.toNat_cast, BitVec.toNat_append, beNat, List.foldl, Nat.shiftLeft_eq]
  have h : ∀ (x : Nat) (b : Byte), x * 2 ^ 8 ||| b.toNat = 256 * x + b.toNat := by
    intro x b
    rw [← Nat.shiftLeft_eq, ← Nat.shiftLeft_add_eq_or_of_lt b.isLt, Nat.shiftLeft_eq]
    omega
  simp only [h, Nat.mul_zero, Nat.zero_add]

/-- Bit i of word j is bit i % 8 of byte 8j + 7 - i / 8. -/
theorem getLsbD_wordOf (blk : Block) (j : Fin 8) (i : Nat) (hi : i < 64) :
    (wordOf blk j).getLsbD i = (blk.toList.getD (8 * j.val + (7 - i / 8)) 0#8).getLsbD (i % 8) := by
  obtain ⟨j, hj⟩ := j
  rw [getD_toList _ _ (by dsimp; omega)]
  simp only [wordOf, be64, BitVec.getLsbD_cast, BitVec.getLsbD_append]
  have hq : i / 8 = 0 ∨ i / 8 = 1 ∨ i / 8 = 2 ∨ i / 8 = 3 ∨ i / 8 = 4 ∨ i / 8 = 5 ∨ i / 8 = 6 ∨ i / 8 = 7 := by omega
  rcases hq with hq | hq | hq | hq | hq | hq | hq | hq <;> simp only [hq] <;>
    (split_ifs <;> first | omega | (congr 1; omega))

end Sys2Proof.Machine

namespace Sys2Proof

open Machine

/-! ### The decoders -/

theorem decodeBeat_beatWord (k : BitVec 2) (d : Byte) :
    decodeBeat (beatWord k d) =
      if k = 0#2 then .data d else if k = 1#2 then .endBeat d else if k = 2#2 then .fail d else .rsvd d := by
  simp [decodeBeat, beatKind_beatWord, beatData_beatWord]

/-- What the command decoder accepts. -/
theorem decodeCmd_ok {c : CmdWord} {i : Instr} (h : decodeCmd c = .ok i) :
    (c.op = 1#8 ∧ i = .init) ∨ (c.op = 2#8 ∧ i = .update (blockOfPort c.blk).toList) ∨
      (c.op = 3#8 ∧ i = .finalize) ∨ (c.op = 4#8 ∧ i = .hash) := by
  unfold decodeCmd at h
  split at h; · simp_all
  split at h; · simp_all
  split at h; · simp_all
  split at h; · simp_all
  cases h

/-- What the command decoder rejects. -/
theorem decodeCmd_error {c : CmdWord} {r : Reject} (h : decodeCmd c = .error r) :
    r = .reservedCommand c.op ∧ (c.op = 0#8 ∨ 5 ≤ c.op.toNat) := by
  have key : ∀ op : BitVec 8, op ≠ 1 → op ≠ 2 → op ≠ 3 → op ≠ 4 → (op = 0#8 ∨ 5 ≤ op.toNat) := by decide +kernel
  unfold decodeCmd at h
  split_ifs at h
  simp at h
  exact ⟨h.symm, key _ ‹_› ‹_› ‹_› ‹_›⟩

theorem decodeCmd_reserved {c : CmdWord} (h : c.op = 0#8 ∨ 5 ≤ c.op.toNat) :
    decodeCmd c = .error (.reservedCommand c.op) := by
  have key : ∀ op : BitVec 8, (op = 0#8 ∨ 5 ≤ op.toNat) → op ≠ 1 ∧ op ≠ 2 ∧ op ≠ 3 ∧ op ≠ 4 := by decide +kernel
  obtain ⟨h1, h2, h3, h4⟩ := key _ h
  unfold decodeCmd
  exact (if_neg h1).trans ((if_neg h2).trans ((if_neg h3).trans (if_neg h4)))

end Sys2Proof
end

