-- ==== Sys2Proof/Laws/Arith.lean ====
section
/-! SUPPORT. Bits of the Mixer and facts of the Compressor's constants. Rewrite with `compress_eq` and `P_toNat`; do not
let `rfl` compare two products with Config.P, whose unfolding goes deep. -/

namespace Sys2Proof.Machine

theorem getLsbD_rotl1 (w : Word) (i : Nat) (hi : i < 64) :
    (rotl1 w).getLsbD i = if i = 0 then w.getLsbD 63 else w.getLsbD (i - 1) := by
  simp only [rotl1, Config.ROT, BitVec.getLsbD_or, BitVec.getLsbD_shiftLeft, BitVec.getLsbD_ushiftRight]
  by_cases h : i = 0
  · subst h; simp
  · have : 1 ≤ i := by omega
    rw [BitVec.getLsbD_of_ge w (64 - 1 + i) (by omega)]
    simp [h, hi]

theorem wordOf_xor (a b : Block) (j : Fin 8) :
    wordOf (Vector.zipWith (· ^^^ ·) a b) j = wordOf a j ^^^ wordOf b j := by
  apply BitVec.eq_of_getLsbD_eq
  intro i hi
  rw [BitVec.getLsbD_xor, getLsbD_wordOf _ _ _ hi, getLsbD_wordOf _ _ _ hi, getLsbD_wordOf _ _ _ hi,
    ← BitVec.getLsbD_xor]
  congr 1
  have : 8 * j.val + (7 - i / 8) < 64 := by omega
  rw [getD_toList _ _ this, getD_toList _ _ this, getD_toList _ _ this]
  simp

/-- MIX accumulated in word order. -/
theorem mix_eq_foldl (blk : Block) :
    mix blk = (List.finRange 8).foldl (fun acc j => acc ^^^ rotl1 (wordOf blk j)) 0#64 := by
  have : List.finRange 8 = [0, 1, 2, 3, 4, 5, 6, 7] := rfl
  rw [this, mix]
  simp only [List.foldl, BitVec.zero_xor]

/-- A block whose first word is m and whose other words are 0. -/
theorem wordOf_firstWord (m : Word) (j : Fin 8) :
    wordOf (Vector.ofFn fun i => if i.val < 8 then m.extractLsb' (56 - 8 * i.val) 8 else 0#8) j =
      if j.val = 0 then m else 0#64 := by
  apply BitVec.eq_of_getLsbD_eq
  intro i hi
  rw [getLsbD_wordOf _ _ _ hi]
  obtain ⟨j, hj⟩ := j
  have h : 8 * j + (7 - i / 8) < 64 := by omega
  by_cases hj0 : j = 0
  · subst hj0
    have h1 : 7 - i / 8 < 8 := by omega
    have h2 : 7 - i / 8 < 64 := by omega
    simp [List.getD, h1, h2, Nat.mod_lt]
    congr 1
    omega
  · have : ¬ (8 * j + (7 - i / 8) < 8) := by omega
    simp [List.getD, h, this, hj0]

theorem compress_eq (c m : Word) :
    compress c m = (c ^^^ m) * Config.P ^^^ ((c ^^^ m) * Config.P) >>> Config.S := rfl

theorem P_toNat : Config.P.toNat = 0x100000001B3 := by
  decide

theorem P_mul_pinv : Config.P * pinv = 1#64 := by
  decide

/-- The diffusion step undoes itself. -/
theorem diffuse_diffuse (x : Word) : (x ^^^ (x >>> 33)) ^^^ ((x ^^^ (x >>> 33)) >>> 33) = x := by
  apply BitVec.eq_of_getLsbD_eq
  intro i hi
  simp only [BitVec.getLsbD_xor, BitVec.getLsbD_ushiftRight]
  rw [BitVec.getLsbD_of_ge x (33 + (33 + i)) (by omega)]
  cases x.getLsbD i <;> cases x.getLsbD (33 + i) <;> rfl

end Sys2Proof.Machine
end

