-- ==== Sys2Proof/Laws/State.lean ====
section
/-! SUPPORT. One lemma per field per named update of the state, so that no proof unfolds a record update. -/

namespace Sys2Proof.Machine

@[simp] theorem State.quiet_cv (s : State) : (s.quiet).cv = s.cv := rfl
@[simp] theorem State.quiet_phase (s : State) : (s.quiet).phase = s.phase := rfl
@[simp] theorem State.quiet_mode (s : State) : (s.quiet).mode = s.mode := rfl
@[simp] theorem State.quiet_fill (s : State) : (s.quiet).fill = s.fill := rfl
@[simp] theorem State.quiet_buf (s : State) : (s.quiet).buf = s.buf := rfl
@[simp] theorem State.quiet_cmdPort (s : State) : (s.quiet).cmdPort = s.cmdPort := rfl
@[simp] theorem State.quiet_strmPort (s : State) : (s.quiet).strmPort = s.strmPort := rfl
@[simp] theorem State.quiet_rstPort (s : State) : (s.quiet).rstPort = s.rstPort := rfl
@[simp] theorem State.quiet_wirePort (s : State) : (s.quiet).wirePort = s.wirePort := rfl
@[simp] theorem State.quiet_rsp (s : State) : (s.quiet).rsp = none := rfl
@[simp] theorem State.quiet_resets (s : State) : (s.quiet).resets = s.resets := rfl

@[simp] theorem State.respond_cv (r : Response) (s : State) : (s.respond r).cv = s.cv := rfl
@[simp] theorem State.respond_phase (r : Response) (s : State) : (s.respond r).phase = s.phase := rfl
@[simp] theorem State.respond_mode (r : Response) (s : State) : (s.respond r).mode = s.mode := rfl
@[simp] theorem State.respond_fill (r : Response) (s : State) : (s.respond r).fill = s.fill := rfl
@[simp] theorem State.respond_buf (r : Response) (s : State) : (s.respond r).buf = s.buf := rfl
@[simp] theorem State.respond_cmdPort (r : Response) (s : State) : (s.respond r).cmdPort = s.cmdPort := rfl
@[simp] theorem State.respond_strmPort (r : Response) (s : State) : (s.respond r).strmPort = s.strmPort := rfl
@[simp] theorem State.respond_rstPort (r : Response) (s : State) : (s.respond r).rstPort = s.rstPort := rfl
@[simp] theorem State.respond_wirePort (r : Response) (s : State) : (s.respond r).wirePort = s.wirePort := rfl
@[simp] theorem State.respond_rsp (r : Response) (s : State) : (s.respond r).rsp = some r := rfl
@[simp] theorem State.respond_resets (r : Response) (s : State) : (s.respond r).resets = s.resets := rfl

@[simp] theorem State.initialise_cv (s : State) : (s.initialise).cv = Config.IV := rfl
@[simp] theorem State.initialise_phase (s : State) : (s.initialise).phase = .reset := rfl
@[simp] theorem State.initialise_mode (s : State) : (s.initialise).mode = s.mode := rfl
@[simp] theorem State.initialise_fill (s : State) : (s.initialise).fill = s.fill := rfl
@[simp] theorem State.initialise_buf (s : State) : (s.initialise).buf = s.buf := rfl
@[simp] theorem State.initialise_cmdPort (s : State) : (s.initialise).cmdPort = s.cmdPort := rfl
@[simp] theorem State.initialise_strmPort (s : State) : (s.initialise).strmPort = s.strmPort := rfl
@[simp] theorem State.initialise_rstPort (s : State) : (s.initialise).rstPort = s.rstPort := rfl
@[simp] theorem State.initialise_wirePort (s : State) : (s.initialise).wirePort = s.wirePort := rfl
@[simp] theorem State.initialise_rsp (s : State) : (s.initialise).rsp = s.rsp := rfl
@[simp] theorem State.initialise_resets (s : State) : (s.initialise).resets = s.resets := rfl

@[simp] theorem State.fold_cv (blk : Block) (s : State) : (s.fold blk).cv = compress s.cv (mix blk) := rfl
@[simp] theorem State.fold_phase (blk : Block) (s : State) : (s.fold blk).phase = .accum := rfl
@[simp] theorem State.fold_mode (blk : Block) (s : State) : (s.fold blk).mode = s.mode := rfl
@[simp] theorem State.fold_fill (blk : Block) (s : State) : (s.fold blk).fill = s.fill := rfl
@[simp] theorem State.fold_buf (blk : Block) (s : State) : (s.fold blk).buf = s.buf := rfl
@[simp] theorem State.fold_cmdPort (blk : Block) (s : State) : (s.fold blk).cmdPort = s.cmdPort := rfl
@[simp] theorem State.fold_strmPort (blk : Block) (s : State) : (s.fold blk).strmPort = s.strmPort := rfl
@[simp] theorem State.fold_rstPort (blk : Block) (s : State) : (s.fold blk).rstPort = s.rstPort := rfl
@[simp] theorem State.fold_wirePort (blk : Block) (s : State) : (s.fold blk).wirePort = s.wirePort := rfl
@[simp] theorem State.fold_rsp (blk : Block) (s : State) : (s.fold blk).rsp = s.rsp := rfl
@[simp] theorem State.fold_resets (blk : Block) (s : State) : (s.fold blk).resets = s.resets := rfl

@[simp] theorem State.emitDigest_cv (s : State) : (s.emitDigest).cv = s.cv := rfl
@[simp] theorem State.emitDigest_phase (s : State) : (s.emitDigest).phase = .final := rfl
@[simp] theorem State.emitDigest_mode (s : State) : (s.emitDigest).mode = s.mode := rfl
@[simp] theorem State.emitDigest_fill (s : State) : (s.emitDigest).fill = s.fill := rfl
@[simp] theorem State.emitDigest_buf (s : State) : (s.emitDigest).buf = s.buf := rfl
@[simp] theorem State.emitDigest_cmdPort (s : State) : (s.emitDigest).cmdPort = s.cmdPort := rfl
@[simp] theorem State.emitDigest_strmPort (s : State) : (s.emitDigest).strmPort = s.strmPort := rfl
@[simp] theorem State.emitDigest_rstPort (s : State) : (s.emitDigest).rstPort = s.rstPort := rfl
@[simp] theorem State.emitDigest_wirePort (s : State) : (s.emitDigest).wirePort = s.wirePort := rfl
@[simp] theorem State.emitDigest_rsp (s : State) : (s.emitDigest).rsp = some (.okDigest (fin s.cv) (hex (fin s.cv))) := rfl
@[simp] theorem State.emitDigest_resets (s : State) : (s.emitDigest).resets = s.resets := rfl

@[simp] theorem State.hardwareReset_cv (s : State) : (s.hardwareReset).cv = Config.IV := rfl
@[simp] theorem State.hardwareReset_phase (s : State) : (s.hardwareReset).phase = .reset := rfl
@[simp] theorem State.hardwareReset_mode (s : State) : (s.hardwareReset).mode = .idle := rfl
@[simp] theorem State.hardwareReset_fill (s : State) : (s.hardwareReset).fill = 0 := rfl
@[simp] theorem State.hardwareReset_buf (s : State) : (s.hardwareReset).buf = freeBuf (s.resets + 1) := rfl
@[simp] theorem State.hardwareReset_cmdPort (s : State) : (s.hardwareReset).cmdPort = s.cmdPort := rfl
@[simp] theorem State.hardwareReset_strmPort (s : State) : (s.hardwareReset).strmPort = s.strmPort := rfl
@[simp] theorem State.hardwareReset_rstPort (s : State) : (s.hardwareReset).rstPort = s.rstPort := rfl
@[simp] theorem State.hardwareReset_wirePort (s : State) : (s.hardwareReset).wirePort = s.wirePort := rfl
@[simp] theorem State.hardwareReset_rsp (s : State) : (s.hardwareReset).rsp = none := rfl
@[simp] theorem State.hardwareReset_resets (s : State) : (s.hardwareReset).resets = s.resets + 1 := rfl

@[simp] theorem State.tick_cv (s : State) : (s.tick).cv = s.cv := rfl
@[simp] theorem State.tick_phase (s : State) : (s.tick).phase = s.phase := rfl
@[simp] theorem State.tick_mode (s : State) : (s.tick).mode = s.mode := rfl
@[simp] theorem State.tick_fill (s : State) : (s.tick).fill = s.fill := rfl
@[simp] theorem State.tick_buf (s : State) : (s.tick).buf = s.buf := rfl
@[simp] theorem State.tick_cmdPort (s : State) : (s.tick).cmdPort = s.wireChange.cmd.getD s.cmdPort := rfl
@[simp] theorem State.tick_strmPort (s : State) : (s.tick).strmPort = s.wireChange.strm.getD s.strmPort := rfl
@[simp] theorem State.tick_rstPort (s : State) : (s.tick).rstPort = s.rstPort.tail := rfl
@[simp] theorem State.tick_wirePort (s : State) : (s.tick).wirePort = s.wirePort.tail := rfl
@[simp] theorem State.tick_rsp (s : State) : (s.tick).rsp = s.rsp := rfl
@[simp] theorem State.tick_resets (s : State) : (s.tick).resets = s.resets := rfl

@[simp] theorem State.takeException_cv (x : Exc) (s : State) : (s.takeException x).cv = s.cv := by
  cases x <;> rfl
@[simp] theorem State.takeException_phase (x : Exc) (s : State) : (s.takeException x).phase = s.phase := by
  cases x <;> rfl
@[simp] theorem State.takeException_buf (x : Exc) (s : State) : (s.takeException x).buf = s.buf := by
  cases x <;> rfl
@[simp] theorem State.takeException_cmdPort (x : Exc) (s : State) : (s.takeException x).cmdPort = s.cmdPort := by
  cases x <;> rfl
@[simp] theorem State.takeException_strmPort (x : Exc) (s : State) : (s.takeException x).strmPort = s.strmPort := by
  cases x <;> rfl
@[simp] theorem State.takeException_rstPort (x : Exc) (s : State) : (s.takeException x).rstPort = s.rstPort := by
  cases x <;> rfl
@[simp] theorem State.takeException_wirePort (x : Exc) (s : State) : (s.takeException x).wirePort = s.wirePort := by
  cases x <;> rfl
@[simp] theorem State.takeException_resets (x : Exc) (s : State) : (s.takeException x).resets = s.resets := by
  cases x <;> rfl

@[simp] theorem State.accept_cv (s : State) : s.accept.cv = s.cv := by
  unfold State.accept; split <;> rfl
@[simp] theorem State.accept_phase (s : State) : s.accept.phase = s.phase := by
  unfold State.accept; split <;> rfl
@[simp] theorem State.accept_mode (s : State) : s.accept.mode = s.mode := by
  unfold State.accept; split <;> rfl
@[simp] theorem State.accept_fill (s : State) : s.accept.fill = s.fill := by
  unfold State.accept; split <;> rfl
@[simp] theorem State.accept_buf (s : State) : s.accept.buf = s.buf := by
  unfold State.accept; split <;> rfl
@[simp] theorem State.accept_rstPort (s : State) : s.accept.rstPort = s.rstPort := by
  unfold State.accept; split <;> rfl
@[simp] theorem State.accept_wirePort (s : State) : s.accept.wirePort = s.wirePort := by
  unfold State.accept; split <;> rfl
@[simp] theorem State.accept_rsp (s : State) : s.accept.rsp = s.rsp := by
  unfold State.accept; split <;> rfl
@[simp] theorem State.accept_resets (s : State) : s.accept.resets = s.resets := by
  unfold State.accept; split <;> rfl

@[simp] theorem State.padAndFold_mode (s : State) : s.padAndFold.mode = s.mode := by
  unfold State.padAndFold; split <;> rfl
@[simp] theorem State.padAndFold_fill (s : State) : s.padAndFold.fill = s.fill := by
  unfold State.padAndFold; split <;> rfl
@[simp] theorem State.padAndFold_cmdPort (s : State) : s.padAndFold.cmdPort = s.cmdPort := by
  unfold State.padAndFold; split <;> rfl
@[simp] theorem State.padAndFold_strmPort (s : State) : s.padAndFold.strmPort = s.strmPort := by
  unfold State.padAndFold; split <;> rfl
@[simp] theorem State.padAndFold_rstPort (s : State) : s.padAndFold.rstPort = s.rstPort := by
  unfold State.padAndFold; split <;> rfl
@[simp] theorem State.padAndFold_wirePort (s : State) : s.padAndFold.wirePort = s.wirePort := by
  unfold State.padAndFold; split <;> rfl
@[simp] theorem State.padAndFold_rsp (s : State) : s.padAndFold.rsp = s.rsp := by
  unfold State.padAndFold; split <;> rfl
@[simp] theorem State.padAndFold_resets (s : State) : s.padAndFold.resets = s.resets := by
  unfold State.padAndFold; split <;> rfl

@[simp] theorem State.pushByte_mode (d : Byte) (s : State) : (s.pushByte d).mode = s.mode := by
  unfold State.pushByte; dsimp only; split <;> rfl
@[simp] theorem State.pushByte_cmdPort (d : Byte) (s : State) : (s.pushByte d).cmdPort = s.cmdPort := by
  unfold State.pushByte; dsimp only; split <;> rfl
@[simp] theorem State.pushByte_strmPort (d : Byte) (s : State) : (s.pushByte d).strmPort = s.strmPort := by
  unfold State.pushByte; dsimp only; split <;> rfl
@[simp] theorem State.pushByte_rstPort (d : Byte) (s : State) : (s.pushByte d).rstPort = s.rstPort := by
  unfold State.pushByte; dsimp only; split <;> rfl
@[simp] theorem State.pushByte_wirePort (d : Byte) (s : State) : (s.pushByte d).wirePort = s.wirePort := by
  unfold State.pushByte; dsimp only; split <;> rfl
@[simp] theorem State.pushByte_rsp (d : Byte) (s : State) : (s.pushByte d).rsp = s.rsp := by
  unfold State.pushByte; dsimp only; split <;> rfl
@[simp] theorem State.pushByte_resets (d : Byte) (s : State) : (s.pushByte d).resets = s.resets := by
  unfold State.pushByte; dsimp only; split <;> rfl

end Sys2Proof.Machine
end

