-- ==== Sys2Proof/Laws/Ops.lean ====
section
/-! SUPPORT. What each shared operation can do, and the inversions of exec and step: cite these, unfold nothing. -/

namespace Sys2Proof.Machine

theorem whenIdle_idle {s : State} (t : State) (h : s.mode = .idle) : whenIdle s t = .next t := if_pos h
theorem whenIdle_not {s : State} (t : State) (h : s.mode ≠ .idle) : whenIdle s t = .next s.quiet := if_neg h
theorem whenStream_stream {s : State} (t : State) (h : s.mode = .stream) : whenStream s t = .next t := if_pos h
theorem whenStream_not {s : State} (t : State) (h : s.mode ≠ .stream) : whenStream s t = .next s.quiet := if_neg h

/-- foldBytes folds a block of 64 bytes, or takes BlockSize. -/
theorem foldBytes_cases (bytes : List Byte) (k : State → State) (s : State) :
    (∃ blk : Block, bytes = blk.toList ∧ s.foldBytes bytes k = k (s.fold blk)) ∨
      (bytes.length ≠ 64 ∧ s.foldBytes bytes k = s.takeException .blockSize) := by
  by_cases h : bytes.length = 64
  · obtain ⟨blk, rfl⟩ := exists_block h
    exact .inl ⟨blk, rfl, by simp [State.foldBytes, blockOfBytes_toList]⟩
  · exact .inr ⟨h, by simp [State.foldBytes, blockOfBytes_none h]⟩

theorem pushByte_partial {d : Byte} {s : State} (f : Fin 64) (h : s.fill.val < 63) (hf : f.val = s.fill.val + 1) :
    s.pushByte d = { s with buf := s.buf.set s.fill.val d s.fill.isLt, fill := f } := by
  unfold State.pushByte
  have : ¬ s.fill.val = 63 := by omega
  simp only [this, dite_false]
  congr 1
  apply Fin.ext
  simp [hf]

theorem pushByte_full {d : Byte} {s : State} (h : s.fill.val = 63) :
    s.pushByte d =
      { s with
        buf := s.buf.set 63 d, cv := compress s.cv (mix (s.buf.set 63 d)), phase := .accum, fill := 0 } := by
  unfold State.pushByte
  have : s.buf.set s.fill.val d s.fill.isLt = s.buf.set 63 d := by congr
  simp only [this]
  rw [dif_pos h]
  rfl

theorem padAndFold_zero {s : State} (h : s.fill = 0) : s.padAndFold = s := by
  simp [State.padAndFold, h]

theorem padAndFold_partial {s : State} (h : s.fill ≠ 0) :
    s.padAndFold =
      { s with
        buf := padFrom s.fill.val s.buf, cv := compress s.cv (mix (padFrom s.fill.val s.buf)), phase := .accum } := by
  have : ¬ s.fill.val = 0 := fun h' => h (Fin.ext h')
  unfold State.padAndFold
  rw [if_neg this]
  rfl

/-- Where the host changes no wire, one step of the inputs leaves what the ports present. -/
theorem tick_keep {s : State} (h : s.wireChange = .keep) :
    s.tick = { s with rstPort := s.rstPort.tail, wirePort := s.wirePort.tail } := by
  simp [State.tick, h, WireChange.keep]

/-- A change of the CMD wires replaces what they presented. -/
theorem tick_cmdPort_change {s : State} {q : List CmdWord} (h : s.wireChange.cmd = some q) : s.tick.cmdPort = q := by
  simp [h]

/-- A change of the STRM wires replaces what they presented. -/
theorem tick_strmPort_change {s : State} {q : List BeatWord} (h : s.wireChange.strm = some q) :
    s.tick.strmPort = q := by
  simp [h]

theorem step_reset {s : State} (h : s.rstAsserted = true) : step s = .next s.tick.hardwareReset := by
  simp [step, transition, h]

theorem step_wait {s : State} (h : s.rstAsserted = false) (hp : s.tick.presented = none) : step s = .next s.tick.quiet := by
  simp [step, transition, h, hp, held]

theorem step_accept {s : State} {w : PortWord} (h : s.rstAsserted = false) (hp : s.tick.presented = some w) :
    step s = acceptWord w s.tick.accept := by
  simp [step, transition, h, hp]

theorem presented_idle {s : State} {c : CmdWord} {rest : List CmdWord} (hm : s.mode = .idle)
    (h : s.cmdPort = c :: rest) : s.presented = some (.cmd c) := by
  simp [State.presented, hm, h]

theorem presented_stream {s : State} {b : BeatWord} {rest : List BeatWord} (hm : s.mode = .stream)
    (h : s.strmPort = b :: rest) : s.presented = some (.beat b) := by
  simp [State.presented, hm, h]

theorem accept_idle {s : State} {c : CmdWord} {rest : List CmdWord} (hm : s.mode = .idle) (h : s.cmdPort = c :: rest) :
    s.accept = { s with cmdPort := rest } := by
  simp [State.accept, hm, h]

theorem accept_stream {s : State} {b : BeatWord} {rest : List BeatWord} (hm : s.mode = .stream)
    (h : s.strmPort = b :: rest) : s.accept = { s with strmPort := rest } := by
  simp [State.accept, hm, h]

theorem mode_cases (m : Mode) : m = .idle ∨ m = .stream ∨ m = .halt := by
  cases m <;> simp

/-- Everything exec can do where it answers a next state. -/
theorem exec_cases {i : Instr} {s t : State} (h : exec i s = .next t) :
    (t = s.quiet ∧ ((i.isCommand = true ∧ s.mode ≠ .idle) ∨ (i.isCommand = false ∧ s.mode ≠ .stream))) ∨
    (s.mode = .idle ∧ (
      (i = .init ∧ t = s.initialise.respond .ok) ∨
      (∃ blk : Block, i = .update blk.toList ∧ t = (s.fold blk).respond .ok) ∨
      (∃ blk, i = .update blk ∧ blk.length ≠ 64 ∧ t = s.takeException .blockSize) ∨
      (i = .finalize ∧ t = s.emitDigest) ∨
      (i = .hash ∧ t = { s.initialise.quiet with fill := 0, mode := .stream }))) ∨
    (s.mode = .stream ∧ (
      (∃ d, i = .data d ∧ t = (s.pushByte d).quiet) ∨
      (∃ x, i = .endBeat x ∧ t = { s.padAndFold.emitDigest with fill := 0, mode := .idle }) ∨
      (∃ e, i = .fail e ∧ t = s.takeException (.ioFail e)) ∨
      (∃ x, i = .rsvd x ∧ t = s.takeException (.badBeat x)))) := by
  have cmd : ∀ u, i.isCommand = true → whenIdle s u = .next t →
      (t = s.quiet ∧ ((i.isCommand = true ∧ s.mode ≠ .idle) ∨ (i.isCommand = false ∧ s.mode ≠ .stream))) ∨
        (s.mode = .idle ∧ t = u) := by
    intro u hi hu
    by_cases hm : s.mode = .idle
    · rw [whenIdle_idle _ hm] at hu; simp at hu; exact .inr ⟨hm, hu.symm⟩
    · rw [whenIdle_not _ hm] at hu; simp at hu; exact .inl ⟨hu.symm, .inl ⟨hi, hm⟩⟩
  have beat : ∀ u, i.isCommand = false → whenStream s u = .next t →
      (t = s.quiet ∧ ((i.isCommand = true ∧ s.mode ≠ .idle) ∨ (i.isCommand = false ∧ s.mode ≠ .stream))) ∨
        (s.mode = .stream ∧ t = u) := by
    intro u hi hu
    by_cases hm : s.mode = .stream
    · rw [whenStream_stream _ hm] at hu; simp at hu; exact .inr ⟨hm, hu.symm⟩
    · rw [whenStream_not _ hm] at hu; simp at hu; exact .inl ⟨hu.symm, .inr ⟨hi, hm⟩⟩
  cases i with
  | update blk =>
    obtain h | ⟨hm, rfl⟩ := cmd _ rfl h
    · exact .inl h
    · obtain ⟨b, rfl, hb⟩ | ⟨hl, hb⟩ := foldBytes_cases blk (State.respond .ok) s
      · exact .inr (.inl ⟨hm, .inr (.inl ⟨b, rfl, hb⟩)⟩)
      · exact .inr (.inl ⟨hm, .inr (.inr (.inl ⟨blk, rfl, hl, hb⟩))⟩)
  | init | finalize | hash =>
    obtain h | ⟨hm, rfl⟩ := cmd _ rfl h
    · exact .inl h
    · exact .inr (.inl ⟨hm, by simp⟩)
  | data | endBeat | fail | rsvd =>
    obtain h | ⟨hm, rfl⟩ := beat _ rfl h
    · exact .inl h
    · exact .inr (.inr ⟨hm, by simp⟩)

/-- Everything step can do where it answers a next state: a reset, a wait, a decoded command, a reserved command, a
beat, each on the wires that `s.tick` shows. -/
theorem step_cases {s t : State} (h : step s = .next t) :
    (s.rstAsserted = true ∧ t = s.tick.hardwareReset) ∨
    (s.rstAsserted = false ∧ s.tick.presented = none ∧ t = s.tick.quiet) ∨
    (∃ c rest i, s.rstAsserted = false ∧ s.mode = .idle ∧ s.tick.cmdPort = c :: rest ∧ decodeCmd c = .ok i ∧
      exec i { s.tick with cmdPort := rest } = .next t) ∨
    (∃ c rest, s.rstAsserted = false ∧ s.mode = .idle ∧ s.tick.cmdPort = c :: rest ∧
      decodeCmd c = .error (.reservedCommand c.op) ∧
      t = { s.tick with cmdPort := rest, rsp := some (.err .illegalCmd c.op) }) ∨
    (∃ b rest, s.rstAsserted = false ∧ s.mode = .stream ∧ s.tick.strmPort = b :: rest ∧
      exec (decodeBeat b) { s.tick with strmPort := rest } = .next t) := by
  by_cases hr : s.rstAsserted = true
  · rw [step_reset hr] at h; simp at h; exact .inl ⟨hr, h.symm⟩
  have hr : s.rstAsserted = false := by simpa using hr
  right
  have hmode : s.tick.mode = s.mode := rfl
  rcases hp : s.tick.presented with _ | w
  · rw [step_wait hr hp] at h; simp at h; exact .inl ⟨hr, rfl, h.symm⟩
  right
  rw [step_accept hr hp] at h
  obtain hm | hm | hm := mode_cases s.tick.mode
  · rcases hc : s.tick.cmdPort with _ | ⟨c, rest⟩
    · rw [State.presented, hm, hc] at hp; cases hp
    rw [presented_idle hm hc] at hp
    simp at hp; subst hp
    rw [accept_idle hm hc] at h
    rcases hd : decodeCmd c with r | i
    · obtain ⟨rfl, -⟩ := decodeCmd_error hd
      simp only [acceptWord, decode, hd, rejectWord, Host.Outcome.next.injEq] at h
      exact .inr (.inl ⟨c, rest, hr, hm, rfl, hd, h.symm⟩)
    · simp only [acceptWord, decode, hd] at h
      exact .inl ⟨c, rest, i, hr, hm, rfl, hd, h⟩
  · rcases hc : s.tick.strmPort with _ | ⟨b, rest⟩
    · rw [State.presented, hm, hc] at hp; cases hp
    rw [presented_stream hm hc] at hp
    simp at hp; subst hp
    rw [accept_stream hm hc] at h
    exact .inr (.inr ⟨b, rest, hr, hm, rfl, h⟩)
  · rw [State.presented, hm] at hp; cases hp

/-- exec neither reads nor writes a port, and it counts no reset. -/
theorem exec_ports {i : Instr} {s t : State} (h : exec i s = .next t) (a : List CmdWord) (b : List BeatWord)
    (c : List Bool) (d : List WireChange) :
    t.cmdPort = s.cmdPort ∧ t.strmPort = s.strmPort ∧ t.rstPort = s.rstPort ∧ t.wirePort = s.wirePort ∧
      t.resets = s.resets ∧
      exec i { s with cmdPort := a, strmPort := b, rstPort := c, wirePort := d } =
        .next { t with cmdPort := a, strmPort := b, rstPort := c, wirePort := d } := by
  have total : ∃ u, exec i { s with cmdPort := a, strmPort := b, rstPort := c, wirePort := d } = .next u := by
    cases i <;> simp only [exec, execInit, execUpdate, execFinalize, execHash, execData, execEnd, execFail, execRsvd,
      whenIdle, whenStream, held] <;> split <;> exact ⟨_, rfl⟩
  obtain ⟨u, hu⟩ := total
  rw [hu]
  cases i <;> simp only [exec, execInit, execUpdate, execFinalize, execHash, execData, execEnd, execFail, execRsvd,
      whenIdle, whenStream, held] at h hu <;>
    split_ifs at h hu <;> simp only [Host.Outcome.next.injEq] at h hu <;> subst h <;> subst hu <;>
    try exact ⟨rfl, rfl, rfl, rfl, rfl, rfl⟩
  · unfold State.foldBytes; split <;> exact ⟨rfl, rfl, rfl, rfl, rfl, rfl⟩
  · unfold State.pushByte; dsimp only; split <;> exact ⟨rfl, rfl, rfl, rfl, rfl, rfl⟩
  · unfold State.padAndFold; dsimp only; split <;> exact ⟨rfl, rfl, rfl, rfl, rfl, rfl⟩

end Sys2Proof.Machine
end

