-- ==== Sys2Proof/Laws/PerInstr.lean ====
section
/-! SUPPORT. Statements about every instruction as syntax, one lemma per constructor. -/

namespace Sys2Proof.Laws

/-- The word of an instruction stands on the instruction's own port and matches its own row of the opcode table and no
other (30_encoding.md R62, R67). -/
def EncodedRow.Statement (i : Instr) : Prop :=
  ((∃ c, encode i = .cmd c) ↔ i.isCommand = true) ∧ (matchingRows (encode i)).map OpRow.mnemonic = [i.mnemonic]

theorem EncodedRow.init : EncodedRow.Statement .init :=
  ⟨⟨fun _ => rfl, fun _ => ⟨_, rfl⟩⟩, by decide⟩

theorem EncodedRow.update (blk : List Byte) : EncodedRow.Statement (.update blk) :=
  ⟨⟨fun _ => rfl, fun _ => ⟨_, rfl⟩⟩, by simp [matchingRows, encode, opRows, Instr.mnemonic]⟩

theorem EncodedRow.finalize : EncodedRow.Statement .finalize :=
  ⟨⟨fun _ => rfl, fun _ => ⟨_, rfl⟩⟩, by decide⟩

theorem EncodedRow.hash : EncodedRow.Statement .hash :=
  ⟨⟨fun _ => rfl, fun _ => ⟨_, rfl⟩⟩, by decide⟩

theorem EncodedRow.data (d : Byte) : EncodedRow.Statement (.data d) := by
  have h : ∀ d : Byte, (matchingRows (encode (.data d))).map OpRow.mnemonic = ["DATA"] := by decide +kernel
  exact ⟨⟨fun ⟨_, hc⟩ => (by cases hc), fun hc => (by cases hc)⟩, h d⟩

theorem EncodedRow.endBeat (x : Byte) : EncodedRow.Statement (.endBeat x) := by
  have h : ∀ x : Byte, (matchingRows (encode (.endBeat x))).map OpRow.mnemonic = ["END"] := by decide +kernel
  exact ⟨⟨fun ⟨_, hc⟩ => (by cases hc), fun hc => (by cases hc)⟩, h x⟩

theorem EncodedRow.fail (e : Byte) : EncodedRow.Statement (.fail e) := by
  have h : ∀ e : Byte, (matchingRows (encode (.fail e))).map OpRow.mnemonic = ["FAIL"] := by decide +kernel
  exact ⟨⟨fun ⟨_, hc⟩ => (by cases hc), fun hc => (by cases hc)⟩, h e⟩

theorem EncodedRow.rsvd (x : Byte) : EncodedRow.Statement (.rsvd x) := by
  have h : ∀ x : Byte, (matchingRows (encode (.rsvd x))).map OpRow.mnemonic = ["RSVD"] := by decide +kernel
  exact ⟨⟨fun ⟨_, hc⟩ => (by cases hc), fun hc => (by cases hc)⟩, h x⟩

end Sys2Proof.Laws
end

