-- ==== Sys2Proof/Laws/Run.lean ====
section
/-! SUPPORT. Runs of several steps and their responses, a step at a time. -/

namespace Sys2Proof.Machine

theorem core_run_succ (M : Host.Core) (n : Nat) (s t : M.State) (h : M.step s = .next t) :
    M.run (n + 1) s = M.run n t := by
  simp only [Host.Core.run, h]

theorem runSteps_zero (s : State) : runSteps 0 s = .next s := rfl

theorem runSteps_succ {n : Nat} {s t : State} (h : step s = .next t) : runSteps (n + 1) s = runSteps n t :=
  core_run_succ core n s t h

theorem responses_succ {n : Nat} {s t : State} (h : step s = .next t) :
    responses (n + 1) s = t.rsp.toList ++ responses n t := by
  simp [responses, h]

theorem core_run_first (M : Host.Core) (n : Nat) (s t : M.State) (h : M.run (n + 1) s = .next t) :
    ∃ u, M.step s = .next u ∧ M.run n u = .next t := by
  rcases hs : M.step s with u | f | r
  · exact ⟨u, rfl, by rw [core_run_succ M n s u hs] at h; exact h⟩
  · simp only [Host.Core.run, hs] at h; cases h
  · simp only [Host.Core.run, hs] at h; cases h

/-- A run that reaches a state has a first step. -/
theorem runSteps_first {n : Nat} {s t : State} (h : runSteps (n + 1) s = .next t) :
    ∃ u, step s = .next u ∧ runSteps n u = .next t :=
  core_run_first core n s t h

theorem runSteps_add (m n : Nat) {s t : State} (h : runSteps m s = .next t) : runSteps (m + n) s = runSteps n t := by
  induction m generalizing s with
  | zero => rw [runSteps_zero] at h; simp at h; subst h; simp
  | succ m ih =>
    obtain ⟨u, hu, h⟩ := runSteps_first h
    rw [show m + 1 + n = (m + n) + 1 by omega, runSteps_succ hu, ih h]

theorem responses_add (m n : Nat) {s t : State} (h : runSteps m s = .next t) :
    responses (m + n) s = responses m s ++ responses n t := by
  induction m generalizing s with
  | zero => rw [runSteps_zero] at h; simp at h; subst h; simp [responses]
  | succ m ih =>
    obtain ⟨u, hu, h⟩ := runSteps_first h
    rw [show m + 1 + n = (m + n) + 1 by omega, responses_succ hu, ih h, responses_succ hu]
    simp

/-- The first of n + 1 undisturbed steps: no reset, the ports as they are, and n undisturbed steps after it. -/
theorem undisturbed_succ {s : State} {n : Nat} (h : s.undisturbed (n + 1)) :
    s.rstAsserted = false ∧ s.tick.cmdPort = s.cmdPort ∧ s.tick.strmPort = s.strmPort ∧ s.tick.undisturbed n := by
  obtain ⟨hr, hw⟩ := h
  have hchange : s.wireChange = .keep := by
    unfold State.wiresKept at hw
    rcases hl : s.wirePort with _ | ⟨w, ws⟩
    · simp [State.wireChange, hl]
    · rw [hl] at hw; simp [State.wireChange, hl]; exact hw w (by simp)
  refine ⟨?_, by simp [hchange, WireChange.keep], by simp [hchange, WireChange.keep], ?_, ?_⟩
  · unfold State.noReset at hr
    rcases hl : s.rstPort with _ | ⟨b, bs⟩
    · simp [State.rstAsserted, hl]
    · rw [hl] at hr; simp [State.rstAsserted, hl]; exact hr b (by simp)
  · unfold State.noReset at *
    intro b hb
    rcases hl : s.rstPort with _ | ⟨b', bs⟩
    · simp [hl] at hb
    · rw [hl] at hr; simp [hl] at hb; exact hr b (by simp; exact .inr hb)
  · unfold State.wiresKept at *
    intro w hb
    rcases hl : s.wirePort with _ | ⟨w', ws⟩
    · simp [hl] at hb
    · rw [hl] at hw; simp [hl] at hb; exact hw w (by simp; exact .inr hb)

theorem undisturbed_congr {s t : State} {n : Nat} (h : s.undisturbed n) (hr : t.rstPort = s.rstPort)
    (hw : t.wirePort = s.wirePort) : t.undisturbed n := by
  unfold State.undisturbed State.noReset State.wiresKept at *
  rw [hr, hw]
  exact h

end Sys2Proof.Machine
end

