-- ==== Sys2Proof/Laws/Stream.lean ====
section
/-! SUPPORT. The chunking and the fold of a byte sequence, a piece at a time. -/

namespace Sys2Proof.Machine

theorem streamBlock_getElem (s : List Byte) (i t : Nat) (h : t < 64) :
    (streamBlock s i)[t] = s.getD (64 * i + t) 0#8 := by
  simp [streamBlock]

theorem foldBlocks_append (c : Word) (a b : List Block) :
    foldBlocks c (a ++ b) = foldBlocks (foldBlocks c a) b := by
  induction a generalizing c with
  | nil => rfl
  | cons x a ih => simp [foldBlocks, ih]

/-- The whole blocks of a byte sequence. -/
theorem take_bs (s : List Byte) (n : Nat) (h : 64 * n ≤ s.length) :
    (bs s).take n = (List.range n).map (streamBlock s) := by
  rw [bs, ← List.map_take, List.take_range, Nat.min_eq_left (by omega)]

/-- Bytes appended leave the whole blocks before them as they are. -/
theorem take_bs_append (s d : List Byte) (n : Nat) (h : 64 * n ≤ s.length) : (bs (s ++ d)).take n = (bs s).take n := by
  rw [take_bs _ _ h, take_bs _ _ (by simp; omega)]
  apply List.map_congr_left
  intro i hi
  simp at hi
  apply Vector.ext
  intro t ht
  rw [streamBlock_getElem _ _ _ ht, streamBlock_getElem _ _ _ ht, List.getD, List.getD,
    List.getElem?_append_left (by omega)]

/-- The blocks of a sequence whose last block is partial. -/
theorem bs_partial (s : List Byte) (h : s.length % 64 ≠ 0) :
    bs s = (bs s).take (s.length / 64) ++ [streamBlock s (s.length / 64)] := by
  rw [take_bs _ _ (by omega), bs, show (s.length + 63) / 64 = s.length / 64 + 1 by omega, List.range_succ,
    List.map_append]
  rfl

end Sys2Proof.Machine
end

