-- ==== Sys2Proof/Tests/Slice0.lean ====
section
/-! SUPPORT. The model's own tests: the WellFormed checks, words written out bit by bit, one small step for each
instruction, the functions' vectors, and one witness for the hypotheses of each obligation. Expected values are the
spec's (spec/95_test_vectors.md; each test names its section). -/

namespace Sys2Proof.Tests

-- One theorem at a time: kernel evaluations that wait for one another would each hold a thread.
set_option Elab.async false

open Sys2Proof.Machine

/-! ### Small states -/

/-- A core with chosen registers and ports; no reset and no change of the wires is pending. -/
def coreAt (m : Mode) (f : Fin 64) (b : Block) (cmds : List CmdWord) (beats : List BeatWord) : State :=
  ⟨.accum, m, f, Config.IV, b, cmds, beats, [], [], none, 0⟩

/-- The all-zero block. -/
def zeros : Block := Vector.replicate 64 0#8

/-- The bytes 00 01 to 3F. -/
def ramp : Block := Vector.ofFn fun i => BitVec.ofNat 8 i.val

/-- The block 61 62 63 and 61 zero bytes. -/
def abc : Block := Vector.ofFn fun i => [0x61#8, 0x62#8, 0x63#8].getD i.val 0x00#8

/-- IDLE with nothing presented, PHASE = ACCUM, CV = IV. -/
def idle : State := coreAt .idle 0 zeros [] []

/-- The same core after INIT. -/
def fresh : State := { idle with phase := .reset }

/-- Inside a HASH command with f bytes in BUF. -/
def stream (f : Fin 64) : State := coreAt .stream f abc [] []

/-- HALT, with a command and a beat presented. -/
def halted : State := coreAt .halt 0 zeros [⟨0x01#8, 0#512⟩] [0x061#10]

/-- The next state, if there is one. -/
def next? : Host.Outcome State Fault Refusal → Option State
  | .next t => some t
  | .fault _ => none
  | .refused _ => none

/-- CV, PHASE, MODE and FILL after an outcome, as the spec's tables list them. -/
def regs (o : Host.Outcome State Fault Refusal) : Option (Word × Phase × Mode × Fin 64) :=
  (next? o).map fun t => (t.cv, t.phase, t.mode, t.fill)

/-- The response of an outcome: code, info and the digest bits. -/
def rsp (o : Host.Outcome State Fault Refusal) : Option (Byte × Byte × Option (BitVec 256)) :=
  (next? o).bind fun t => t.rsp.map fun r => (r.code, r.info, r.digestBits)

/-! ### WellFormed -/

theorem test_wf_update_63_bytes_refused : (Instr.update (List.replicate 63 0#8)).wf = false := by decide
theorem test_wf_update_65_bytes_refused : (Instr.update (List.replicate 65 0#8)).wf = false := by decide
theorem test_wf_update_no_bytes_refused : (Instr.update []).wf = false := by decide
theorem test_wf_update_64_bytes : (Instr.update (List.replicate 64 0#8)).wf = true := by decide

/-! ### Decoding, bit by bit (R62, R63, R67; sections 8.3 to 8.5) -/

theorem test_decode_init : decodeCmd ⟨0b00000001#8, 0#512⟩ = .ok .init := by decide
theorem test_decode_init_ignores_blk : decodeCmd ⟨0b00000001#8, 0xFF#512⟩ = .ok .init := by decide
theorem test_decode_update_ramp :
    decodeCmd ⟨0b00000010#8, 0x000102030405060708090A0B0C0D0E0F101112131415161718191A1B1C1D1E1F202122232425262728292A2B2C2D2E2F303132333435363738393A3B3C3D3E3F#512⟩ =
      .ok (.update ramp.toList) := by decide +kernel
theorem test_decode_finalize : decodeCmd ⟨0b00000011#8, 0#512⟩ = .ok .finalize := by decide
theorem test_decode_hash : decodeCmd ⟨0b00000100#8, 0#512⟩ = .ok .hash := by decide
theorem test_decode_zero_reserved : decodeCmd ⟨0b00000000#8, 0#512⟩ = .error (.reservedCommand 0x00#8) := by decide
theorem test_decode_05_reserved : decodeCmd ⟨0b00000101#8, 0#512⟩ = .error (.reservedCommand 0x05#8) := by decide
theorem test_decode_81_reserved : decodeCmd ⟨0b10000001#8, 0#512⟩ = .error (.reservedCommand 0x81#8) := by decide
theorem test_decode_data_00 : decodeBeat 0b0000000000#10 = .data 0x00#8 := by decide
theorem test_decode_data_ff : decodeBeat 0b0011111111#10 = .data 0xFF#8 := by decide
theorem test_decode_end_00 : decodeBeat 0b0100000000#10 = .endBeat 0x00#8 := by decide
theorem test_decode_end_ff : decodeBeat 0b0111111111#10 = .endBeat 0xFF#8 := by decide
theorem test_decode_fail_0d : decodeBeat 0b1000001101#10 = .fail 0x0D#8 := by decide
theorem test_decode_fail_ff : decodeBeat 0b1011111111#10 = .fail 0xFF#8 := by decide
theorem test_decode_rsvd_00 : decodeBeat 0b1100000000#10 = .rsvd 0x00#8 := by decide
theorem test_decode_rsvd_7f : decodeBeat 0b1101111111#10 = .rsvd 0x7F#8 := by decide
theorem test_encode_update_abc :
    encode (.update abc.toList) = .cmd ⟨0b00000010#8, 0x616263#512 <<< 488⟩ := by decide +kernel
theorem test_encode_data_61 : encode (.data 0x61#8) = .beat 0x061#10 := by decide
theorem test_encode_end : encode (.endBeat 0x00#8) = .beat 0x100#10 := by decide
theorem test_encode_fail_0d : encode (.fail 0x0D#8) = .beat 0x20D#10 := by decide
theorem test_encode_rsvd_7f : encode (.rsvd 0x7F#8) = .beat 0x37F#10 := by decide
theorem test_table_word_hash : decodeTableWord 8 0x04 = some .hash := by decide
theorem test_table_word_rsvd : decodeTableWord 16 0x37F = some (.rsvd 0x7F#8) := by decide
theorem test_table_word_reserved : decodeTableWord 8 0x05 = none := by decide
theorem test_fetch_word_runs_first : regs (step (State.reset.withFetchWord 16 0x20D)) = some (Config.IV, .reset, .idle, 0) := by
  decide +kernel

/-! ### One step for each instruction (sections 2.2, 2.3, 6.2, 7, 8.1) -/

theorem test_init : regs (exec .init { idle with cv := 0x1E1E1D78777779E3#64, phase := .final }) =
    some (0xA5A5A5A5A5A5A5A5#64, .reset, .idle, 0) := by decide +kernel
theorem test_init_responds_ok : rsp (exec .init idle) = some (0x00#8, 0x00#8, none) := by decide +kernel
theorem test_update_after_finalize :
    regs (exec (.update abc.toList) { idle with cv := 0x1E1E1D78777779E3#64, phase := .final }) =
      some (0xBF5CD0B35FAA74E0#64, .accum, .idle, 0) := by decide +kernel
theorem test_update_63_bytes : regs (exec (.update (List.replicate 63 0x11#8)) idle) = some (Config.IV, .accum, .halt, 0) := by
  decide +kernel
theorem test_finalize : regs (exec .finalize { idle with cv := 0x1E1E1D78777779E3#64 }) =
    some (0x1E1E1D78777779E3#64, .final, .idle, 0) := by decide +kernel
theorem test_finalize_digest : rsp (exec .finalize { idle with cv := 0x1E1E1D78777779E3#64 }) =
    some (0x00#8, 0x00#8, some 0xd0915c33656f8c1ff9342207dffa9e53b5296047c0c10f94d1b9c98c9d45cdc2#256) := by decide +kernel
theorem test_hash : regs (exec .hash { idle with cv := 0x0123456789ABCDEF#64, phase := .final }) =
    some (Config.IV, .reset, .stream, 0) := by decide +kernel
theorem test_hash_no_response : rsp (exec .hash idle) = none := by decide +kernel
theorem test_data_63rd : regs (exec (.data 0x3E#8) { stream 62 with phase := .reset }) =
    some (Config.IV, .reset, .stream, 63) := by decide +kernel
theorem test_data_64th_folds : regs (exec (.data 0x3F#8) { stream 63 with buf := ramp.set 63 0x99#8, phase := .reset }) =
    some (0x1E1E1D78777779E3#64, .accum, .stream, 0) := by decide +kernel
theorem test_end_pads : regs (exec (.endBeat 0xFF#8) { stream 3 with buf := abc.set 3 0x77#8 }) =
    some (0x5021F77850688CE3#64, .final, .idle, 0) := by decide +kernel
theorem test_end_fill_0 : rsp (exec (.endBeat 0x00#8) { stream 0 with cv := 0x1E1E1D78777779E3#64 }) =
    some (0x00#8, 0x00#8, some 0xd0915c33656f8c1ff9342207dffa9e53b5296047c0c10f94d1b9c98c9d45cdc2#256) := by decide +kernel
theorem test_fail : regs (exec (.fail 0x0D#8) { stream 1 with cv := 0x1E1E1D78777779E3#64 }) =
    some (0x1E1E1D78777779E3#64, .accum, .idle, 0) := by decide +kernel
theorem test_fail_info : rsp (exec (.fail 0x0D#8) (stream 1)) = some (0x01#8, 0x0D#8, none) := by decide +kernel
theorem test_rsvd : regs (exec (.rsvd 0x7F#8) { stream 1 with phase := .reset }) = some (Config.IV, .reset, .idle, 0) := by
  decide +kernel
theorem test_rsvd_info : rsp (exec (.rsvd 0x7F#8) (stream 1)) = some (0x04#8, 0x7F#8, none) := by decide +kernel
theorem test_reserved_command : rsp (step { idle with cmdPort := [⟨0xFF#8, 0#512⟩] }) = some (0x03#8, 0xFF#8, none) := by
  decide +kernel
theorem test_reset_in_halt : regs (step { halted with rstPort := [true] }) = some (Config.IV, .reset, .idle, 0) := by
  decide +kernel
theorem test_reset_in_stream : rsp (step { stream 8 with rstPort := [true] }) = none := by decide +kernel
theorem test_halt_accepts_nothing : (next? (step halted)).map State.cmdPort = some [⟨0x01#8, 0#512⟩] := by decide +kernel

/-! ### The functions (sections 2.1, 3, 4, 5) -/

theorem test_rotl1_no_wrap : rotl1 0x7FFFFFFFFFFFFFFF#64 = 0xFFFFFFFFFFFFFFFE#64 := by decide
theorem test_word_ramp_1 : wordOf ramp 1 = 0x08090A0B0C0D0E0F#64 := by decide +kernel
theorem test_word_byte_8 : wordOf (zeros.set 8 0x80#8) 1 = 0x8000000000000000#64 := by decide +kernel
theorem test_mix_ramp_cancels : mix ramp = 0#64 := by decide +kernel
theorem test_mix_byte_63_and_0 : mix ((zeros.set 63 0x01#8).set 0 0x80#8) = 0x3#64 := by decide +kernel
theorem test_compress_wraps : compress 0xFFFFFFFFFFFFFFFF#64 0#64 = 0xFFFFFEFF80000132#64 := by decide
theorem test_compress_logical_shift : compress 0x8000000000000000#64 0#64 = 0x8000000040000000#64 := by decide
theorem test_compress_wide_multiplier : compress 0#64 1#64 = 0x0000010000000133#64 := by decide
theorem test_decompress_iv : decompress Config.IV 0#64 = 0xD24F70AE9448A92D#64 := by decide
theorem test_fin_big_endian :
    digestPort (fin 0x0123456789ABCDEF#64) = 0x55c53f5d490297900cefa825d0c8e8e9532ee8a118abe7d8570762cd38be9818#256 := by
  decide +kernel
theorem test_sha_message : (shaMessage 0x0123456789ABCDEF#64).take 3 = [0x01234567#32, 0x89abcdef#32, 0x80000000#32] := by
  decide
theorem test_hex_digits : [hexDigit 0#4, hexDigit 9#4, hexDigit 10#4, hexDigit 15#4] = [0x30#8, 0x39#8, 0x61#8, 0x66#8] := by
  decide
theorem test_hex_iv : (hex (fin Config.IV)).toList.take 6 = [0x65#8, 0x64#8, 0x30#8, 0x62#8, 0x34#8, 0x64#8] := by
  decide +kernel
theorem test_bs_65_bytes : bs (ramp.toList ++ [0x40#8]) = [ramp, zeros.set 0 0x40#8] := by decide +kernel
theorem test_bs_empty : bs [] = [] := by decide
theorem test_cvof_hello : cvOf [0x68#8, 0x65#8, 0x6C#8, 0x6C#8, 0x6F#8, 0x20#8, 0x77#8, 0x6F#8, 0x72#8, 0x6C#8, 0x64#8] =
    0x8074DF39C6A52D9D#64 := by decide +kernel

/-! ### Traces (R72, R73) -/

theorem test_trace_beat_outside_hash : wellFormedTrace [.data 0x61#8] = false := by decide
theorem test_trace_hash_not_closed : wellFormedTrace [.hash, .data 0x61#8] = false := by decide
theorem test_trace_reset_closes_no_hash : wellFormedTrace [.hash, .data 0x61#8, .reset] = false ∧
    wellFormedTrace [.hash, .reset, .endLine] = false := by decide
theorem test_program_refused : parseProgram "HASH\nDATA 61\nRESET".toList = none ∧
    parseProgram "RESET\nHASHB 61".toList = some [.reset, .hash, .data 0x61#8, .endLine] := by decide +kernel
theorem test_trace_p7 : wellFormedTrace [.reset, .cmd 0x00#8, .cmd 0xFF#8, .finalize, .hash, .rsvd 0x7F#8, .hash, .endLine] =
    true := by decide
theorem test_parse_lines :
    parseTrace "RESET\nHASH ; a stream\n  DATA 6b\n\nEND".toList = some [.reset, .hash, .data 0x6B#8, .endLine] := by
  decide +kernel
theorem test_parse_hashb : parseTrace "HASHB 6162".toList = some [.hash, .data 0x61#8, .data 0x62#8, .endLine] := by
  decide +kernel
theorem test_parse_updatez : parseTrace "UPDATEZ 616263".toList = some [.update abc] := by decide +kernel
theorem test_parse_odd_digits_refused : parseTrace "DATA 6".toList = none := by decide +kernel

/-! ### Witnesses: the hypotheses of each obligation are met together -/

theorem witness_DecodeEncodeAgree :
    (Instr.update (List.replicate 64 0xFF#8)).WellFormed ∧ (Instr.endBeat 0xFF#8).WellFormed := by decide

theorem witness_EncodeDecodeAgree :
    decode (.beat 0x1FF#10) = .ok (.endBeat 0xFF#8) ∧
    (decodeCmd ⟨0x02#8, 0#512⟩ = .ok (.update zeros.toList) ∧ (⟨0x02#8, 0#512⟩ : CmdWord).op = 0x02#8) ∧
    decodeCmd ⟨0x04#8, 0#512⟩ = .ok .hash := by decide +kernel

theorem witness_BlockOperandPacking : decodeCmd ⟨0x02#8, 0#512⟩ = .ok (.update zeros.toList) ∧ 0 < 64 ∧ 63 < 64 := by
  decide +kernel

theorem witness_BeatWordRanges :
    (0x0FF#10).toNat < 0x100 ∧ (0x100 ≤ (0x100#10).toNat ∧ (0x100#10).toNat < 0x200) ∧
    (0x100 ≤ (0x1FF#10).toNat ∧ (0x1FF#10).toNat < 0x200) ∧ (0x200 ≤ (0x200#10).toNat ∧ (0x200#10).toNat < 0x300) ∧
    (0x200 ≤ (0x2FF#10).toNat ∧ (0x2FF#10).toNat < 0x300) ∧ 0x300 ≤ (0x300#10).toNat := by decide

theorem witness_DecodeFollowsOpcodeTable :
    decodeCmd ⟨0x04#8, 0#512⟩ = .ok .hash ∧ decodeCmd ⟨0x05#8, 0#512⟩ = .error (.reservedCommand 0x05#8) := by decide

theorem witness_StepRunsDecodedInstr :
    (let s := coreAt .idle 0 zeros [⟨0x04#8, 0#512⟩] []
     s.rstAsserted = false ∧ s.mode = .idle ∧ s.tick.cmdPort = ⟨0x04#8, 0#512⟩ :: [] ∧ decodeCmd ⟨0x04#8, 0#512⟩ = .ok .hash) ∧
    (let s := coreAt .stream 63 abc [] [0x3FF#10]
     s.rstAsserted = false ∧ s.mode = .stream ∧ s.tick.strmPort = 0x3FF#10 :: []) := by decide +kernel

theorem witness_ReservedCommandIsIllegalCmd :
    (let s := coreAt .idle 0 zeros [⟨0x00#8, 0#512⟩, ⟨0x05#8, 0#512⟩] []
     s.rstAsserted = false ∧ s.mode = .idle ∧ s.tick.cmdPort = ⟨0x00#8, 0#512⟩ :: [⟨0x05#8, 0#512⟩]) ∧
    ((0x00#8 : Byte) = 0x00#8 ∧ 5 ≤ (0x05#8 : Byte).toNat ∧ 5 ≤ (0xFF#8 : Byte).toNat) := by decide +kernel

theorem witness_UnacceptedItemsAreHeld :
    (let s := coreAt .stream 1 abc [⟨0x01#8, 0#512⟩] [0x061#10]
     s.mode ≠ .idle ∧ (∃ t, step s = .next t) ∧ s.rstAsserted = false) ∧
    (let s := coreAt .idle 0 abc [⟨0x01#8, 0#512⟩] [0x061#10]
     s.mode ≠ .stream ∧ (∃ t, step s = .next t) ∧ s.rstAsserted = false) ∧
    (halted.mode ≠ .idle ∧ halted.mode ≠ .stream ∧ (∃ t, step halted = .next t) ∧ halted.rstAsserted = false) :=
  ⟨⟨by decide, ⟨_, rfl⟩, rfl⟩, ⟨by decide, ⟨_, rfl⟩, rfl⟩, by decide, by decide, ⟨_, rfl⟩, rfl⟩

theorem witness_CoreWaits :
    (idle.rstAsserted = false ∧ idle.mode = .idle ∧ idle.tick.cmdPort = []) ∧
    ((stream 63).rstAsserted = false ∧ (stream 63).mode = .stream ∧ (stream 63).tick.strmPort = []) ∧
    (halted.rstAsserted = false ∧ halted.mode = .halt) := by decide

theorem witness_HardwareResetEffect :
    ({ stream 63 with rstPort := [true] } : State).rstAsserted = true ∧
    (let s : State := { halted with rstPort := [true] }
     s.mode = .halt ∧ ∃ t, step s = .next t ∧ t.mode ≠ .halt) :=
  ⟨rfl, rfl, _, rfl, by decide⟩

theorem witness_ResetStateValues :
    (let s : State := { stream 63 with rstPort := [true] }
     s.rstAsserted = true ∧ ∃ t, step s = .next t) := ⟨rfl, _, rfl⟩

theorem inv_idle : idle.Inv := ⟨fun _ => rfl, fun h => (by cases h), fun h => (by cases h)⟩
theorem inv_fresh : fresh.Inv := ⟨fun _ => rfl, fun _ => rfl, fun h => (by cases h)⟩
theorem inv_stream : (stream 63).Inv := ⟨fun h => absurd rfl h, fun h => (by cases h), fun _ => .inr rfl⟩

theorem witness_InitEffect :
    idle.mode = .idle ∧ (∃ t, exec .init idle = .next t) ∧ fresh.Inv ∧ fresh.mode = .idle ∧ fresh.phase = .reset :=
  ⟨rfl, ⟨_, rfl⟩, inv_fresh, rfl, rfl⟩

theorem abc_bytes : ∀ (i : Nat) (h : i < 64), abc[i] = ([0x61#8, 0x62#8, 0x63#8].getD i 0x00#8) := by
  intro i h
  rw [abc, Vector.getElem_ofFn]

theorem witness_UpdateEffect :
    idle.mode = .idle ∧ (List.replicate 63 0#8).length ≠ 64 ∧ (List.replicate 65 0#8).length ≠ 64 ∧
    ∃ blk : Block, ∀ (i : Nat) (h : i < 64), blk[i] = ([0x61#8, 0x62#8, 0x63#8].getD i 0x00#8) :=
  ⟨rfl, by decide, by decide, abc, abc_bytes⟩

theorem witness_BlockSizeException :
    (idle.mode = .idle ∧ (List.replicate 63 0#8).length ≠ 64) ∧
    (halted.mode = .halt ∧ halted.rstAsserted = false ∧ ∃ t, step halted = .next t) ∧
    (idle.mode ≠ .halt ∧ ∃ t, step idle = .next t) :=
  ⟨⟨rfl, by decide⟩, ⟨rfl, rfl, _, rfl⟩, by decide, _, rfl⟩

theorem witness_FinalizeEffect :
    idle.mode = .idle ∧ (∃ t, exec .finalize idle = .next t) ∧ fresh.Inv ∧ fresh.mode = .idle ∧ fresh.phase = .reset :=
  ⟨rfl, ⟨_, rfl⟩, inv_fresh, rfl, rfl⟩

theorem witness_HashAcceptance : idle.mode = .idle := rfl

theorem witness_DataEffect :
    ((stream 0).mode = .stream ∧ (stream 0).fill.val < 63 ∧ (1 : Fin 64).val = (stream 0).fill.val + 1) ∧
    ((stream 62).mode = .stream ∧ (stream 62).fill.val < 63 ∧ (63 : Fin 64).val = (stream 62).fill.val + 1) ∧
    ((stream 63).mode = .stream ∧ (stream 63).fill.val = 63) ∧ (∃ t, exec (.data 0x61#8) (stream 63) = .next t) :=
  ⟨by decide, by decide, by decide, _, rfl⟩

theorem witness_EndEffect :
    ((stream 0).mode = .stream ∧ (stream 0).fill = 0) ∧
    ((stream 1).mode = .stream ∧ (stream 1).fill ≠ 0 ∧
      ∃ (blk : Block) (c : Word), (∀ (i : Nat) (h : i < 64), blk[i] = if i < (stream 1).fill.val then (stream 1).buf[i] else 0x00#8) ∧
        c = compress (stream 1).cv (mix blk)) ∧
    ((stream 63).mode = .stream ∧ (stream 63).fill ≠ 0) ∧
    ((stream 3).mode = .stream ∧ (stream 3).fill = 3 ∧ (stream 3).cv = Config.IV ∧ (stream 3).buf[0] = 0x61#8 ∧
      (stream 3).buf[1] = 0x62#8 ∧ (stream 3).buf[2] = 0x63#8) :=
  ⟨by decide, ⟨rfl, by decide, padFrom 1 abc, _, padFrom_getElem 1 abc, rfl⟩, by decide, by decide⟩

theorem witness_FailTakesIoFail :
    (stream 63).mode = .stream ∧ ∃ t, exec (.fail 0xFF#8) (stream 63) = .next t ∧ t.rsp = some (.err .ioFail 0xFF#8) :=
  ⟨rfl, _, rfl, rfl⟩

theorem witness_RsvdTakesBadBeat : (stream 63).mode = .stream := rfl

theorem witness_WrongModeChangesNothing :
    (Instr.isCommand .init = true ∧ (stream 1).mode ≠ .idle) ∧ (Instr.isCommand (.data 0x61#8) = false ∧ idle.mode ≠ .stream) ∧
    halted.mode ≠ .idle ∧ halted.mode ≠ .stream := by decide

theorem witness_RotateBits : (1 ≤ 1 ∧ 1 ≤ 63) ∧ (1 ≤ 63 ∧ 63 ≤ 63) := by decide

theorem witness_MixInAnyOrder :
    ([7, 6, 5, 4, 3, 2, 1, 0] : List (Fin 8)).Perm (List.finRange 8) ∧
    ∀ (i : Nat) (h : i < 64), abc[i] = ([0x61#8, 0x62#8, 0x63#8].getD i 0x00#8) := ⟨by decide, abc_bytes⟩

theorem witness_MixIsLinear : wordXor (zeros.set 63 0x01#8) = wordXor (zeros.set 7 0x01#8) := by decide +kernel

theorem witness_CompressArithmetic :
    ∃ (c m : Word) (x1 x2 : Nat), x1 = c.toNat ^^^ m.toNat ∧ x2 = (x1 * 0x100000001B3) % 2 ^ 64 :=
  ⟨0x0123456789ABCDEF#64, 0xFEDCBA9876543210#64, _, _, rfl, rfl⟩

theorem witness_CompressBitForms :
    (∃ (c m x x2 : Word), x = c ^^^ m ∧
      x2 = (x <<< 40) + (x <<< 8) + (x <<< 7) + (x <<< 5) + (x <<< 4) + (x <<< 1) + x) ∧ 31 ≤ 31 ∧ 30 < 31 :=
  ⟨⟨0#64, 1#64, _, _, rfl, rfl⟩, by decide⟩

theorem witness_HexDigits :
    ∃ d : Digest, (9 = d[0].toNat / 16 ∧ 15 = d[0].toNat % 16) ∧ (10 = d[31].toNat / 16 ∧ 0 = d[31].toNat % 16) :=
  ⟨(Vector.replicate 32 0x9F#8).set 31 0xA0#8, by decide⟩

theorem witness_ResponseRecord :
    (Response.err .ioFail 0x0D#8).dv = false ∧ Response.ok.dv = false ∧ 31 < 32 ∧ 63 < 64 := by decide

theorem witness_EmittedCodes :
    (∃ t r, step (coreAt .idle 0 zeros [⟨0x01#8, 0#512⟩] []) = .next t ∧ t.rsp = some r ∧ r.code = 0x00#8) ∧
    (∃ t r, step (coreAt .idle 0 zeros [⟨0x03#8, 0#512⟩] []) = .next t ∧ t.rsp = some r ∧ r.dv = true) ∧
    (∃ t r, step (coreAt .stream 0 zeros [] [0x2FF#10]) = .next t ∧ t.rsp = some r ∧ r.code = 0x01#8) ∧
    (∃ t r, step (coreAt .idle 0 zeros [⟨0xFF#8, 0#512⟩] []) = .next t ∧ t.rsp = some r ∧ r.code = 0x03#8) ∧
    (∃ t r, step (coreAt .stream 0 zeros [] [0x300#10]) = .next t ∧ t.rsp = some r ∧ r.code = 0x04#8) ∧
    (∃ t r, idle.mode = .idle ∧ (List.replicate 63 0#8).length ≠ 64 ∧
      exec (.update (List.replicate 63 0#8)) idle = .next t ∧ t.rsp = some r) :=
  ⟨⟨_, _, rfl, rfl, rfl⟩, ⟨_, _, rfl, rfl, rfl⟩, ⟨_, _, rfl, rfl, rfl⟩, ⟨_, _, rfl, rfl, rfl⟩, ⟨_, _, rfl, rfl, rfl⟩,
    _, _, rfl, by decide, rfl, rfl⟩

theorem witness_ResponseExactlyWhenDue :
    (∃ t, step idle = .next t) ∧ (∃ t, step (coreAt .stream 0 zeros [] [0x100#10]) = .next t) := ⟨⟨_, rfl⟩, _, rfl⟩

/-- CV after one step of s. -/
def cvAfter (s : State) : Option Word := (next? (step s)).map State.cv

theorem next_of_cvAfter {s : State} {v : Word} (h : cvAfter s = some v) (hne : v ≠ s.cv) :
    ∃ t, step s = .next t ∧ t.cv ≠ s.cv := by
  unfold cvAfter at h
  rcases hs : step s with t | f | r
  · rw [hs] at h; cases h; exact ⟨t, rfl, hne⟩
  · rw [hs] at h; cases h
  · rw [hs] at h; cases h

/-- An UPDATE, a 64th DATA beat, an END of a partial block, and a reset, INIT and HASH from another CV. -/
theorem witness_WritersOfCV :
    (∃ t, step (coreAt .idle 0 zeros [⟨0x02#8, 0#512⟩] []) = .next t ∧ t.cv ≠ Config.IV) ∧
    (∃ t, step (coreAt .stream 63 zeros [] [0x000#10]) = .next t ∧ t.cv ≠ Config.IV) ∧
    (∃ t, step (coreAt .stream 1 zeros [] [0x100#10]) = .next t ∧ t.cv ≠ Config.IV) ∧
    (∃ t, step { coreAt .stream 63 zeros [] [] with cv := 0#64, rstPort := [true] } = .next t ∧ t.cv ≠ 0#64) ∧
    (∃ t, step { coreAt .idle 0 zeros [⟨0x01#8, 0#512⟩] [] with cv := 0#64 } = .next t ∧ t.cv ≠ 0#64) ∧
    (∃ t, step { coreAt .idle 0 zeros [⟨0x04#8, 0#512⟩] [] with cv := 0#64 } = .next t ∧ t.cv ≠ 0#64) :=
  ⟨next_of_cvAfter (v := 0x1E1E1D78777779E3#64) (by decide +kernel) (by decide),
    next_of_cvAfter (v := 0x1E1E1D78777779E3#64) (by decide +kernel) (by decide),
    next_of_cvAfter (v := 0x1E1E1D78777779E3#64) (by decide +kernel) (by decide),
    ⟨_, rfl, by decide⟩, ⟨_, rfl, by decide⟩, ⟨_, rfl, by decide⟩⟩

theorem witness_ModeTransitions :
    (let s : State := { halted with rstPort := [true] }; ∃ t, step s = .next t ∧ t.mode ≠ s.mode) ∧
    (let s := coreAt .idle 0 zeros [⟨0x04#8, 0#512⟩] []; ∃ t, step s = .next t ∧ t.mode ≠ s.mode) ∧
    (let s := coreAt .stream 0 zeros [] [0x100#10]; ∃ t, step s = .next t ∧ t.mode ≠ s.mode) ∧
    (let s := coreAt .stream 63 zeros [] [0x200#10]; ∃ t, step s = .next t ∧ t.mode ≠ s.mode) ∧
    (let s := coreAt .stream 63 zeros [] [0x3FF#10]; ∃ t, step s = .next t ∧ t.mode ≠ s.mode) :=
  ⟨⟨_, rfl, by decide⟩, ⟨_, rfl, by decide⟩, ⟨_, rfl, by decide⟩, ⟨_, rfl, by decide⟩, _, rfl, by decide⟩

theorem witness_PhaseIsInert : ∃ t, step (coreAt .stream 0 zeros [] [0x100#10]) = .next t := ⟨_, rfl⟩

theorem witness_StaleBufIsInert :
    SameButStale (stream 3) { stream 3 with buf := abc.set 3 0xFF#8 } ∧ ∃ s', step (stream 3) = .next s' := by
  refine ⟨⟨rfl, fun _ i h => ?_⟩, _, rfl⟩
  have h3 : i < 3 := h
  show abc[i] = (abc.set 3 0xFF#8)[i]
  rw [Vector.getElem_set_ne (by omega) (by omega) (by omega)]

theorem witness_InvariantKept :
    (idle.Inv ∧ ∃ t, step idle = .next t) ∧ ((stream 63).Inv ∧ ∃ t, exec (.data 0x61#8) (stream 63) = .next t) :=
  ⟨⟨inv_idle, _, rfl⟩, inv_stream, _, rfl⟩

theorem witness_ChunkingFunction :
    1 < (bs (ramp.toList ++ [0x40#8])).length ∧ (64 * 1 + 0 < 65) ∧ ¬ (64 * 1 + 1 < 65) ∧ 63 < 64 := by decide +kernel

theorem witness_PaddingCollision : [0x61#8, 0x62#8, 0x63#8] ≠ [] ∧ (3 + 63) / 64 = (3 + 61 + 63) / 64 := by decide

theorem witness_StateAfterPrefix :
    (let s : State := { coreAt .stream 0 zeros [] [0x061#10, 0x062#10, 0x100#10] with phase := .reset }
     s.mode = .stream ∧ s.cv = Config.IV ∧ s.phase = .reset ∧ s.fill = 0 ∧
      s.strmPort = [0x61#8, 0x62#8].map (beatWord 0#2) ++ [0x100#10] ∧ s.undisturbed 2) ∧ 1 < [0x61#8, 0x62#8].length % 64 :=
  ⟨⟨rfl, rfl, rfl, rfl, by decide, by constructor <;> intro _ h <;> simp [coreAt] at h⟩, by decide⟩

theorem witness_HashOfStream :
    let s := coreAt .idle 0 zeros [⟨0x04#8, 0#512⟩] [0x061#10, 0x1FF#10]
    s.mode = .idle ∧ s.cmdPort = ⟨0x04#8, 0#512⟩ :: [] ∧
      s.strmPort = [0x61#8].map (beatWord 0#2) ++ beatWord 1#2 0xFF#8 :: [] ∧ s.undisturbed (1 + 2) :=
  ⟨rfl, rfl, by decide, by constructor <;> intro _ h <;> simp [coreAt] at h⟩

theorem witness_HashOfFailingStream :
    let s := coreAt .idle 0 zeros [⟨0x04#8, 0#512⟩] [0x061#10, 0x20D#10]
    s.mode = .idle ∧ s.cmdPort = ⟨0x04#8, 0#512⟩ :: [] ∧
      s.strmPort = [0x61#8].map (beatWord 0#2) ++ beatWord 2#2 0x0D#8 :: [] ∧ s.undisturbed (1 + 2) :=
  ⟨rfl, rfl, by decide, by constructor <;> intro _ h <;> simp [coreAt] at h⟩

theorem witness_IncrementalEquivalence :
    let s := coreAt .idle 0 zeros [⟨0x02#8, 0x616263#512 <<< 488⟩, ⟨0x03#8, 0#512⟩] []
    s.mode = .idle ∧ s.cv = Config.IV ∧
      s.cmdPort = (bs [0x61#8, 0x62#8, 0x63#8]).map (fun b => ⟨0x02#8, portOfBytes b.toList⟩) ++ ⟨0x03#8, 0#512⟩ :: [] ∧
      s.undisturbed ((bs [0x61#8, 0x62#8, 0x63#8]).length + 1) :=
  ⟨rfl, rfl, by decide +kernel, by constructor <;> intro _ h <;> simp [coreAt] at h⟩

theorem witness_HashWithoutTerminatorHangs :
    let s := coreAt .stream 63 abc [⟨0x01#8, 0#512⟩] [0x000#10, 0x0FF#10]
    s.mode = .stream ∧ s.undisturbed 5 ∧ ∀ b ∈ s.strmPort.take 5, b.toNat < 0x100 :=
  ⟨rfl, by constructor <;> intro _ h <;> simp [coreAt] at h, by decide⟩

theorem witness_WellFormedTraceRuns :
    idle.mode = .idle ∧ wellFormedTrace [.hash, .data 0x61#8, .endLine, .reset, .cmd 0x05#8, .hash, .fail 0x0D#8] = true := by
  decide

theorem witness_OneResponsePerCommand :
    idle.mode = .idle ∧ wellFormedTrace [.init, .reset, .hash, .data 0x61#8, .endLine] = true := by decide

theorem witness_PseudoCommandsAgree :
    idle.mode = .idle ∧ (∃ ls, updatez [0x61#8, 0x62#8, 0x63#8] = some ls) ∧ updatez (List.replicate 65 0#8) = none :=
  ⟨rfl, ⟨_, rfl⟩, by decide⟩

theorem witness_InstancesAreIndependent : ([idle, stream 3] : List State)[1]? = some (stream 3) := rfl

/-- INIT and DATA 61 stood on the ports; before the next step the host puts HASH and FAIL FF there instead. -/
def rewired (m : Mode) : State :=
  { coreAt m 0 zeros [⟨0x01#8, 0#512⟩] [0x061#10] with wirePort := [⟨some [⟨0x04#8, 0#512⟩], some [0x2FF#10]⟩] }

theorem test_replaced_command_is_not_accepted : regs (step (rewired .idle)) = some (Config.IV, .reset, .stream, 0) := by
  decide +kernel
theorem test_replaced_beat_is_not_accepted : rsp (step (rewired .stream)) = some (0x01#8, 0xFF#8, none) := by
  decide +kernel

theorem witness_WiresSampledAtAcceptance :
    ((rewired .idle).rstAsserted = false ∧ (rewired .idle).mode = .idle ∧
      (rewired .idle).wireChange.cmd = some (⟨0x04#8, 0#512⟩ :: [])) ∧
    ((rewired .stream).rstAsserted = false ∧ (rewired .stream).mode = .stream ∧
      (rewired .stream).wireChange.strm = some (0x2FF#10 :: [])) ∧
    (∀ m : Mode, ∃ now later, (rewired m).wirePort = now :: later) ∧ (∃ t, step (rewired .halt) = .next t) ∧
    ((rewired .halt).mode ≠ .idle ∧ (rewired .halt).mode ≠ .stream) :=
  ⟨⟨rfl, rfl, rfl⟩, ⟨rfl, rfl, rfl⟩, fun _ => ⟨_, _, rfl⟩, ⟨_, rfl⟩, by decide⟩

/-- The reset case of the last two clauses: both ports would accept in their MODE, but RST is asserted. -/
theorem witness_WiresSampledAtAcceptance_reset (m : Mode) :
    let s := { rewired m with rstPort := [true] }
    (∃ now later, s.wirePort = now :: later) ∧ (s.mode ≠ .idle ∨ s.rstAsserted = true) ∧
      (s.mode ≠ .stream ∨ s.rstAsserted = true) ∧ ∃ t, step s = .next t :=
  ⟨⟨_, _, rfl⟩, .inr rfl, .inr rfl, ⟨_, rfl⟩⟩

theorem witness_WellFormedTraceShape :
    wellFormedTrace [.reset, .cmd 0x05#8, .hash, .data 0x61#8, .rsvd 0x7F#8] = true ∧
    wellFormedTrace [.cmd 0x04#8] = false ∧ wellFormedTrace [.hash, .init, .endLine] = false ∧
    wellFormedTrace [.hash, .endLine, .fail 0x0D#8] = false := by decide

theorem witness_AbandonedHashHasNoResponse :
    idle.mode = .idle ∧ wellFormedTrace [.init] = true ∧ wellFormedTrace [.hash, .endLine] = true ∧
    ([.init, .hash, .data 0x61#8, .reset, .hash, .endLine] : List Line) =
      [.init] ++ .hash :: [0x61#8].map .data ++ .reset :: [.hash, .endLine] := by decide

end Sys2Proof.Tests
end

section
/-! PROOFS of the family 10_state.md: the registers after hardware reset (R33), and PHASE as a register that no rule
reads (R35). -/

namespace Sys2Proof.Machine

/-! ### Hardware reset -/

/-- Settles O12: a step with RST asserted is a hardware reset, which writes the four registers; the reset state holds
the same values. -/
theorem resetStateValues : Obligations.ResetStateValues := by
  refine ⟨fun s t hrst hstep => ?_, rfl, rfl, rfl, rfl, rfl, rfl⟩
  have ht : s.tick.hardwareReset = t := Host.Outcome.next.inj ((step_reset hrst).symm.trans hstep)
  subst ht
  exact ⟨rfl, rfl, rfl, rfl⟩

/-! ### The same state with another PHASE -/

/-- The state with another value of PHASE. -/
def State.withPhase (p : Phase) (s : State) : State :=
  { s with phase := p }

@[simp] theorem State.withPhase_mode (p : Phase) (s : State) : (s.withPhase p).mode = s.mode := rfl

theorem tick_withPhase (p : Phase) (s : State) : (s.withPhase p).tick = s.tick.withPhase p := rfl

theorem accept_withPhase (p : Phase) (s : State) : (s.withPhase p).accept = s.accept.withPhase p := by
  unfold State.accept
  rw [State.withPhase_mode]
  cases s.mode <;> rfl

/-- Two states that differ in PHASE alone. -/
def SameButPhase (t u : State) : Prop :=
  u.withPhase t.phase = t

theorem sameButPhase_pushByte (d : Byte) (p : Phase) (s : State) :
    SameButPhase (s.pushByte d) ((s.withPhase p).pushByte d) := by
  unfold SameButPhase
  by_cases hfull : s.fill.val = 63
  · rw [pushByte_full hfull, pushByte_full (s := s.withPhase p) hfull]
    rfl
  · have hlt : s.fill.val < 63 := by omega
    have hnext : s.fill.val + 1 < 64 := by omega
    rw [pushByte_partial ⟨_, hnext⟩ hlt rfl, pushByte_partial (s := s.withPhase p) ⟨_, hnext⟩ hlt rfl]
    rfl

theorem sameButPhase_padAndFold (p : Phase) (s : State) :
    SameButPhase s.padAndFold (s.withPhase p).padAndFold := by
  unfold SameButPhase
  by_cases hempty : s.fill = 0
  · rw [padAndFold_zero hempty, padAndFold_zero (s := s.withPhase p) hempty]
    rfl
  · rw [padAndFold_partial hempty, padAndFold_partial (s := s.withPhase p) hempty]
    rfl

/-- The digest, and all that END writes after the padding, depend on no PHASE. -/
theorem SameButPhase.endHash {t u : State} (h : SameButPhase t u) :
    SameButPhase { t.emitDigest with fill := 0, mode := .idle } { u.emitDigest with fill := 0, mode := .idle } := by
  unfold SameButPhase at h
  rw [← h]
  rfl

theorem SameButPhase.quiet {t u : State} (h : SameButPhase t u) : SameButPhase t.quiet u.quiet :=
  congrArg State.quiet h

theorem sameButPhase_update (blk : List Byte) (p : Phase) (s : State) :
    SameButPhase (s.foldBytes blk (State.respond .ok)) ((s.withPhase p).foldBytes blk (State.respond .ok)) := by
  unfold SameButPhase State.foldBytes
  cases blockOfBytes blk with
  | some blk => rfl
  | none => rfl

/-! ### Outcomes -/

/-- Where the first outcome is a next state, so is the second, and they differ in PHASE alone. -/
def AgreesButPhase (o o' : Host.Outcome State Fault Refusal) : Prop :=
  ∀ t, o = .next t → ∃ u, o' = .next u ∧ SameButPhase t u

theorem SameButPhase.agrees {t u : State} (h : SameButPhase t u) : AgreesButPhase (.next t) (.next u) := by
  rintro _ ⟨⟩
  exact ⟨u, rfl, h⟩

/-- A command is accepted or held whatever PHASE is. -/
theorem SameButPhase.whenIdle {t u : State} (h : SameButPhase t u) (p : Phase) (s : State) :
    AgreesButPhase (whenIdle s t) (whenIdle (s.withPhase p) u) := by
  by_cases hm : s.mode = .idle
  · rw [whenIdle_idle t hm, whenIdle_idle (s := s.withPhase p) u hm]
    exact h.agrees
  · rw [whenIdle_not t hm, whenIdle_not (s := s.withPhase p) u hm]
    exact SameButPhase.agrees rfl

/-- A beat is accepted or held whatever PHASE is. -/
theorem SameButPhase.whenStream {t u : State} (h : SameButPhase t u) (p : Phase) (s : State) :
    AgreesButPhase (whenStream s t) (whenStream (s.withPhase p) u) := by
  by_cases hm : s.mode = .stream
  · rw [whenStream_stream t hm, whenStream_stream (s := s.withPhase p) u hm]
    exact h.agrees
  · rw [whenStream_not t hm, whenStream_not (s := s.withPhase p) u hm]
    exact SameButPhase.agrees rfl

/-- Every instruction, one case each: PHASE decides neither its acceptance nor anything it computes. -/
theorem exec_agreesButPhase (i : Instr) (p : Phase) (s : State) :
    AgreesButPhase (exec i s) (exec i (s.withPhase p)) := by
  cases i with
  | init | finalize | hash =>
    refine SameButPhase.whenIdle ?_ p s
    exact rfl
  | update blk => exact (sameButPhase_update blk p s).whenIdle p s
  | data d => exact (sameButPhase_pushByte d p s).quiet.whenStream p s
  | endBeat x => exact (sameButPhase_padAndFold p s).endHash.whenStream p s
  | fail | rsvd =>
    refine SameButPhase.whenStream ?_ p s
    exact rfl

theorem acceptWord_agreesButPhase (w : PortWord) (p : Phase) (s : State) :
    AgreesButPhase (acceptWord w s) (acceptWord w (s.withPhase p)) := by
  unfold acceptWord
  cases decode w with
  | ok i => exact exec_agreesButPhase i p s
  | error r => exact SameButPhase.agrees rfl

/-- A reset, a wait or an accepted word: PHASE does not decide which, and changes nothing in any of them. -/
theorem step_agreesButPhase (p : Phase) (s : State) : AgreesButPhase (step s) (step (s.withPhase p)) := by
  by_cases hrst : s.rstAsserted = true
  · rw [step_reset hrst, step_reset (s := s.withPhase p) hrst]
    exact SameButPhase.agrees rfl
  have hrst : s.rstAsserted = false := by simpa using hrst
  cases hw : s.tick.presented with
  | none =>
    rw [step_wait hrst hw, step_wait (s := s.withPhase p) hrst hw]
    exact SameButPhase.agrees rfl
  | some w =>
    rw [step_accept hrst hw, step_accept (s := s.withPhase p) hrst hw, tick_withPhase, accept_withPhase]
    exact acceptWord_agreesButPhase w p s.tick.accept

/-- Settles O38: the two steps take the same branch and agree in all but PHASE. -/
theorem phaseIsInert : Obligations.PhaseIsInert :=
  fun s t p hstep => step_agreesButPhase p s t hstep

end Sys2Proof.Machine
end

section
/-! PROOFS of the family 20_memory.md: several instances share nothing (R51). A step always answers a next state, so a
run of n steps is n times `State.advance`, and an instance advances exactly where the schedule names it. -/

namespace Sys2Proof.Machine

/-! ### Every step answers a next state -/

theorem whenIdle_answers (s t : State) : ∃ u, whenIdle s t = .next u := by
  by_cases hm : s.mode = .idle
  · exact ⟨t, whenIdle_idle t hm⟩
  · exact ⟨s.quiet, whenIdle_not t hm⟩

theorem whenStream_answers (s t : State) : ∃ u, whenStream s t = .next u := by
  by_cases hm : s.mode = .stream
  · exact ⟨t, whenStream_stream t hm⟩
  · exact ⟨s.quiet, whenStream_not t hm⟩

theorem exec_answers (i : Instr) (s : State) : ∃ t, exec i s = .next t := by
  cases i with
  | init | update | finalize | hash => exact whenIdle_answers s _
  | data | endBeat | fail | rsvd => exact whenStream_answers s _

theorem acceptWord_answers (w : PortWord) (s : State) : ∃ t, acceptWord w s = .next t := by
  unfold acceptWord
  cases decode w with
  | ok i => exact exec_answers i s
  | error r => exact ⟨_, rfl⟩

/-- A reset, a wait or an accepted word: none of them stops the core. -/
theorem step_answers (s : State) : ∃ t, step s = .next t := by
  by_cases hrst : s.rstAsserted = true
  · exact ⟨_, step_reset hrst⟩
  have hrst : s.rstAsserted = false := by simpa using hrst
  cases hw : s.tick.presented with
  | none => exact ⟨_, step_wait hrst hw⟩
  | some w => rw [step_accept hrst hw]; exact acceptWord_answers w s.tick.accept

theorem step_eq_advance (s : State) : step s = .next s.advance := by
  obtain ⟨t, ht⟩ := step_answers s
  simp only [State.advance, ht]

theorem runSteps_eq_advance (n : Nat) (s : State) : runSteps n s = .next (State.advance^[n] s) := by
  induction n generalizing s with
  | zero => rfl
  | succ n ih => rw [runSteps_succ (step_eq_advance s), ih, Function.iterate_succ_apply]

/-! ### What a schedule does to one instance -/

theorem stepInstance_same {cores : List State} {k : Nat} {s : State} (h : cores[k]? = some s) :
    (stepInstance cores k)[k]? = some s.advance := by
  simp [stepInstance, h]

theorem stepInstance_other {cores : List State} {j k : Nat} (h : j ≠ k) : (stepInstance cores j)[k]? = cores[k]? := by
  simp [stepInstance, h]

theorem runInstances_cons (cores : List State) (j : Nat) (schedule : List Nat) :
    runInstances cores (j :: schedule) = runInstances (stepInstance cores j) schedule := rfl

/-- An instance has advanced as often as the schedule names it, whatever stands between. -/
theorem runInstances_eq_advance {cores : List State} {schedule : List Nat} {k : Nat} {s : State}
    (h : cores[k]? = some s) : (runInstances cores schedule)[k]? = some (State.advance^[schedule.count k] s) := by
  induction schedule generalizing cores s with
  | nil => exact h
  | cons j schedule ih =>
    rw [runInstances_cons]
    by_cases hj : j = k
    · subst hj
      rw [List.count_cons_self, Function.iterate_succ_apply]
      exact ih (stepInstance_same h)
    · rw [List.count_cons_of_ne hj]
      exact ih ((stepInstance_other hj).trans h)

/-- Settles O53: both the run alone and the interleaved run are the same number of advances of the instance. -/
theorem instancesAreIndependent : Obligations.InstancesAreIndependent :=
  fun _ schedule k s hs => ⟨_, runSteps_eq_advance (schedule.count k) s, runInstances_eq_advance hs⟩

end Sys2Proof.Machine
end

section
/-! PROOFS of the family 30_encoding.md: UPDATE's operand on CMD_BLK (R63), reserved command words (R65, R162), the
response record (R68) and the codes a step emits (R69). -/

namespace Sys2Proof.Machine

/-! ### The block operand on CMD_BLK -/

theorem blockOfPort_getElem (p : BitVec 512) (i : Nat) (h : i < 64) :
    (blockOfPort p)[i] = p.extractLsb' (504 - 8 * i) 8 := by
  simp [blockOfPort]

/-- Bit b of byte i of the block stands at place 504 - 8i + b of the port. -/
theorem getLsbD_blockOfPort (p : BitVec 512) (i b : Nat) (hi : i < 64) (hb : b < 8) :
    (blockOfPort p)[i].getLsbD b = p.getLsbD (504 - 8 * i + b) := by
  simp [blockOfPort_getElem, hb]

/-- Every bit of the port stands in some byte of the block. -/
theorem blockOfPort_injective : Function.Injective blockOfPort := by
  intro p q hpq
  apply BitVec.eq_of_getLsbD_eq
  intro k hk
  have hi : 63 - k / 8 < 64 := by omega
  have hb : k % 8 < 8 := by omega
  have hplace : 504 - 8 * (63 - k / 8) + k % 8 = k := by omega
  rw [← hplace, ← getLsbD_blockOfPort p _ _ hi hb, ← getLsbD_blockOfPort q _ _ hi hb, hpq]

theorem portOfBytes_blockOfPort (p : BitVec 512) : portOfBytes (blockOfPort p).toList = p :=
  blockOfPort_injective (blockOfPort_portOfBytes_toList _)

/-- A port as wide as its bytes holds the whole number they spell. -/
theorem toNat_ofNat_beNat {n : Nat} {l : List Byte} (hn : 8 * l.length = n) :
    (BitVec.ofNat n (beNat l)).toNat = beNat l := by
  have hlt : beNat l < (2 ^ 8) ^ l.length := beNat_lt l
  rw [← pow_mul, hn] at hlt
  rw [BitVec.toNat_ofNat, Nat.mod_eq_of_lt hlt]

theorem beNat_blockOfPort (p : BitVec 512) : beNat (blockOfPort p).toList = p.toNat := by
  have hn : 8 * (blockOfPort p).toList.length = 512 := by rw [Vector.length_toList]
  calc beNat (blockOfPort p).toList
      = (portOfBytes (blockOfPort p).toList).toNat := (toNat_ofNat_beNat hn).symm
    _ = p.toNat := by rw [portOfBytes_blockOfPort]

/-- Word j is the slice of 64 bits: its bit k is bit k % 8 of byte 8j + 7 - k / 8. -/
theorem wordOf_blockOfPort (p : BitVec 512) (j : Fin 8) :
    wordOf (blockOfPort p) j = p.extractLsb' (448 - 64 * j.val) 64 := by
  apply BitVec.eq_of_getLsbD_eq
  intro k hk
  have hi : 8 * j.val + (7 - k / 8) < 64 := by omega
  have hb : k % 8 < 8 := by omega
  have hplace : 504 - 8 * (8 * j.val + (7 - k / 8)) + k % 8 = 448 - 64 * j.val + k := by omega
  rw [getLsbD_wordOf _ _ _ hk, getD_toList _ _ hi, getLsbD_blockOfPort p _ _ hi hb, hplace,
    BitVec.getLsbD_extractLsb', decide_eq_true hk, Bool.true_and]

theorem decodeCmd_update (p : BitVec 512) : decodeCmd ⟨0x02#8, p⟩ = .ok (.update (blockOfPort p).toList) := rfl

/-- Of the four commands only UPDATE has an operand, and it is the block on the port. -/
theorem decodeCmd_update_length {c : CmdWord} {blk : List Byte} (h : decodeCmd c = .ok (.update blk)) :
    blk.length = 64 := by
  obtain ⟨-, hi⟩ | ⟨-, hi⟩ | ⟨-, hi⟩ | ⟨-, hi⟩ := decodeCmd_ok h
  case inr.inl =>
    rw [Instr.update.inj hi, Vector.length_toList]
  all_goals cases hi

/-- Settles O4: byte by byte, word by word, and as one number. -/
theorem blockOperandPacking : Obligations.BlockOperandPacking :=
  ⟨fun p => ⟨decodeCmd_update p, blockOfPort_getElem p, wordOf_blockOfPort p, beNat_blockOfPort p⟩,
    fun _ _ => decodeCmd_update_length⟩

/-! ### Reserved command words -/

theorem decodeCmd_error_iff (c : CmdWord) :
    (∃ r, decodeCmd c = .error r) ↔ (c.op = 0x00#8 ∨ 5 ≤ c.op.toNat) := by
  constructor
  · rintro ⟨r, hr⟩
    exact (decodeCmd_error hr).2
  · exact fun h => ⟨_, decodeCmd_reserved h⟩

/-- The word is consumed, and taking IllegalCmd writes the response alone. -/
theorem step_reserved {s : State} {c : CmdWord} {rest : List CmdWord} (hrst : s.rstAsserted = false)
    (hm : s.mode = .idle) (hc : s.tick.cmdPort = c :: rest) (hd : decodeCmd c = .error (.reservedCommand c.op)) :
    step s = .next { s.tick with cmdPort := rest, rsp := some (.err .illegalCmd c.op) } := by
  have hm : s.tick.mode = .idle := hm
  rw [step_accept hrst (presented_idle hm hc), accept_idle hm hc, acceptWord, decode, hd]
  rfl

/-- Settles O8: the decoder rejects the reserved words by name, and the step runs the exception that a rejected word
raises. -/
theorem reservedCommandIsIllegalCmd : Obligations.ReservedCommandIsIllegalCmd := by
  refine ⟨decodeCmd_error_iff, by decide +kernel, ?_, fun op => ⟨rfl, rfl⟩⟩
  intro s c rest hrst hm hc hop
  exact step_reserved hrst hm hc (decodeCmd_reserved hop)

/-! ### The response record -/

theorem Response.dv_iff (r : Response) : r.dv = true ↔ ∃ d h, r = .okDigest d h := by
  cases r with
  | okDigest d h => exact ⟨fun _ => ⟨d, h, rfl⟩, fun _ => rfl⟩
  | ok | err =>
    constructor
    · nofun
    · nofun

theorem Response.fields_absent {r : Response} (h : r.dv = false) : r.digestBits = none ∧ r.hexBits = none := by
  cases r with
  | okDigest => cases h
  | ok | err => exact ⟨rfl, rfl⟩

theorem digestPort_byte (d : Digest) (i : Nat) (hi : i < 32) : (digestPort d).extractLsb' (248 - 8 * i) 8 = d[i] := by
  have hlen : d.toList.length = 32 := Vector.length_toList
  exact (port_byte 256 d.toList (by omega) i (by omega)).trans (Vector.getElem_toList _)

theorem hexPort_char (h : HexString) (k : Nat) (hk : k < 64) : (hexPort h).extractLsb' (504 - 8 * k) 8 = h[k] := by
  have hlen : h.toList.length = 64 := Vector.length_toList
  exact (port_byte 512 h.toList (by omega) k (by omega)).trans (Vector.getElem_toList _)

/-- Settles O33: one case for each form of a response; both ports carry their bytes from the top. -/
theorem responseRecord : Obligations.ResponseRecord :=
  ⟨Response.dv_iff, fun _ => Response.fields_absent,
    fun d h => ⟨digestPort d, hexPort h, rfl, rfl, digestPort_byte d, hexPort_char h⟩,
    fun _ _ => ⟨rfl, rfl⟩, rfl, rfl, fun _ _ => ⟨rfl, rfl⟩⟩

/-! ### The codes a step emits -/

/-- The response an instruction emits, where it emits one. -/
theorem exec_rsp_cases {i : Instr} {s t : State} {r : Response} (h : exec i s = .next t) (hr : t.rsp = some r) :
    (i = .init ∧ r = .ok) ∨
    (∃ blk : Block, i = .update blk.toList ∧ r = .ok) ∨
    (∃ blk, i = .update blk ∧ blk.length ≠ 64 ∧ r = .err .blockSize 0x00#8) ∨
    ((i = .finalize ∨ ∃ x, i = .endBeat x) ∧ ∃ d h, r = .okDigest d h) ∨
    (∃ e, i = .fail e ∧ r = .err .ioFail e) ∨
    (∃ x, i = .rsvd x ∧ r = .err .badBeat x) := by
  obtain ⟨rfl, -⟩ | ⟨-, ⟨rfl, rfl⟩ | ⟨blk, rfl, rfl⟩ | ⟨blk, rfl, hl, rfl⟩ | ⟨rfl, rfl⟩ | ⟨rfl, rfl⟩⟩ |
    ⟨-, ⟨d, rfl, rfl⟩ | ⟨x, rfl, rfl⟩ | ⟨e, rfl, rfl⟩ | ⟨x, rfl, rfl⟩⟩ := exec_cases h
  all_goals cases hr
  · exact .inl ⟨rfl, rfl⟩
  · exact .inr (.inl ⟨blk, rfl, rfl⟩)
  · exact .inr (.inr (.inl ⟨blk, rfl, hl, rfl⟩))
  · exact .inr (.inr (.inr (.inl ⟨.inl rfl, _, _, rfl⟩)))
  · exact .inr (.inr (.inr (.inl ⟨.inr ⟨x, rfl⟩, _, _, rfl⟩)))
  · exact .inr (.inr (.inr (.inr (.inl ⟨e, rfl, rfl⟩))))
  · exact .inr (.inr (.inr (.inr (.inr ⟨x, rfl, rfl⟩))))

/-- R69's table: code, info and digest flag of a response, by the decoder's answer for the word accepted. -/
def EmittedFor (answer : Except Reject Instr) (r : Response) : Prop :=
  (r.code = 0x00#8 ∧ r.info = 0x00#8 ∧ r.dv = false ∧ (answer = .ok .init ∨ ∃ blk, answer = .ok (.update blk))) ∨
  (r.code = 0x00#8 ∧ r.info = 0x00#8 ∧ r.dv = true ∧ (answer = .ok .finalize ∨ ∃ x, answer = .ok (.endBeat x))) ∨
  (r.code = 0x01#8 ∧ r.dv = false ∧ answer = .ok (.fail r.info)) ∨
  (r.code = 0x03#8 ∧ r.dv = false ∧ answer = .error (.reservedCommand r.info)) ∨
  (r.code = 0x04#8 ∧ r.dv = false ∧ answer = .ok (.rsvd r.info))

theorem emittedFor_reserved (op : Byte) : EmittedFor (.error (.reservedCommand op)) (.err .illegalCmd op) :=
  .inr (.inr (.inr (.inl ⟨rfl, rfl, rfl⟩)))

/-- BLOCK_SIZE, the one response outside the table, wants an operand that is not 64 bytes. -/
theorem exec_emittedFor {i : Instr} {s t : State} {r : Response} (hlen : ∀ blk, i = .update blk → blk.length = 64)
    (h : exec i s = .next t) (hr : t.rsp = some r) : EmittedFor (.ok i) r := by
  obtain ⟨rfl, rfl⟩ | ⟨blk, rfl, rfl⟩ | ⟨blk, hi, hl, -⟩ | ⟨hi, d, hx, rfl⟩ | ⟨e, rfl, rfl⟩ | ⟨x, rfl, rfl⟩ :=
    exec_rsp_cases h hr
  · exact .inl ⟨rfl, rfl, rfl, .inl rfl⟩
  · exact .inl ⟨rfl, rfl, rfl, .inr ⟨_, rfl⟩⟩
  · exact absurd (hlen blk hi) hl
  · obtain rfl | ⟨x, rfl⟩ := hi
    · exact .inr (.inl ⟨rfl, rfl, rfl, .inl rfl⟩)
    · exact .inr (.inl ⟨rfl, rfl, rfl, .inr ⟨x, rfl⟩⟩)
  · exact .inr (.inr (.inl ⟨rfl, rfl, rfl⟩))
  · exact .inr (.inr (.inr (.inr ⟨rfl, rfl, rfl⟩)))

theorem decodeBeat_isCommand (b : BeatWord) : (decodeBeat b).isCommand = false := by
  unfold decodeBeat
  split_ifs
  all_goals rfl

theorem decodeBeat_ne_update (b : BeatWord) (blk : List Byte) : decodeBeat b ≠ .update blk := by
  intro h
  have hcmd := decodeBeat_isCommand b
  rw [h] at hcmd
  cases hcmd

/-- A reset and a wait emit nothing; what is left is an accepted word. -/
theorem step_emittedFor {s t : State} {r : Response} (h : step s = .next t) (hr : t.rsp = some r) :
    ∃ w, s.tick.presented = some w ∧ EmittedFor (decode w) r := by
  obtain ⟨-, rfl⟩ | ⟨-, -, rfl⟩ | ⟨c, rest, i, -, hm, hc, hd, hexec⟩ | ⟨c, rest, -, hm, hc, hd, rfl⟩ |
    ⟨b, rest, -, hm, hb, hexec⟩ := step_cases h
  · cases hr
  · cases hr
  · refine ⟨.cmd c, presented_idle (s := s.tick) hm hc, ?_⟩
    rw [decode, hd]
    exact exec_emittedFor (fun blk hi => decodeCmd_update_length (hi ▸ hd)) hexec hr
  · cases hr
    refine ⟨.cmd c, presented_idle (s := s.tick) hm hc, ?_⟩
    rw [decode, hd]
    exact emittedFor_reserved c.op
  · refine ⟨.beat b, presented_stream (s := s.tick) hm hb, ?_⟩
    exact exec_emittedFor (fun blk hi => absurd hi (decodeBeat_ne_update b blk)) hexec hr

theorem exec_update_blockSize {s t : State} {blk : List Byte} {r : Response} (hl : blk.length ≠ 64)
    (h : exec (.update blk) s = .next t) (hr : t.rsp = some r) : r = .err .blockSize 0x00#8 := by
  obtain ⟨hi, -⟩ | ⟨b, hi, -⟩ | ⟨-, -, -, rfl⟩ | ⟨hi | ⟨x, hi⟩, -⟩ | ⟨e, hi, -⟩ | ⟨x, hi, -⟩ := exec_rsp_cases h hr
  case inr.inr.inl => rfl
  case inr.inl =>
    cases hi
    exact absurd Vector.length_toList hl
  all_goals cases hi

/-- Settles O34: the word a step accepted decides its response; no decoded operand reaches BLOCK_SIZE. -/
theorem emittedCodes : Obligations.EmittedCodes := by
  refine ⟨fun s t r h hr => step_emittedFor h hr, ?_⟩
  intro s t blk r _ hl h hr
  obtain rfl := exec_update_blockSize hl h hr
  exact ⟨rfl, rfl, rfl⟩

end Sys2Proof.Machine
end

section
/-! PROOFS of the family 40_blocksource.md: the chunking BS (R80), the DATA beat (R82) and the END beat (R83). -/

namespace Sys2Proof.Machine

/-! ### The chunking BS -/

theorem bs_length (s : List Byte) : (bs s).length = (s.length + 63) / 64 := by
  rw [bs, List.length_map, List.length_range]

theorem bs_getElem (s : List Byte) (i : Nat) (hi : i < (bs s).length) : (bs s)[i] = streamBlock s i := by
  simp [bs]

/-- Settles O43: block i of BS is cut at 64i, and a byte beyond the end reads as the default 0. -/
theorem chunkingFunction : Obligations.ChunkingFunction := by
  refine fun s => ⟨bs_length s, fun i hi t ht => ?_⟩
  rw [bs_getElem, streamBlock_getElem s i t ht]
  split
  case isTrue h => exact List.getD_eq_getElem s _ h
  case isFalse h => exact List.getD_eq_default s _ (Nat.le_of_not_lt h)

/-! ### The words of the beats -/

/-- A beat word written as its kind and its data field decodes by its kind (R67). -/
theorem decodeBeat_append (k : BitVec 2) (d : Byte) :
    decodeBeat (k ++ d) =
      if k = 0#2 then .data d else if k = 1#2 then .endBeat d else if k = 2#2 then .fail d else .rsvd d :=
  decodeBeat_beatWord k d

/-! ### DATA -/

theorem exec_data {s : State} (d : Byte) (hm : s.mode = .stream) : exec (.data d) s = .next (s.pushByte d).quiet :=
  whenStream_stream _ hm

/-- Whether or not the block is complete, the byte is stored at FILL. -/
@[simp] theorem State.pushByte_buf (d : Byte) (s : State) :
    (s.pushByte d).buf = s.buf.set s.fill.val d s.fill.isLt := by
  unfold State.pushByte; dsimp only; split <;> rfl

/-- R82's example: the block of 64 zero bytes folded onto IV. -/
theorem compress_IV_zeroBlock : compress Config.IV (mix (Vector.replicate 64 0#8)) = 0x1E1E1D78777779E3#64 := by
  decide +kernel

/-- Settles O19: a DATA beat is one pushByte, which either moves FILL on or folds the block that the byte completes. -/
theorem dataEffect : Obligations.DataEffect := by
  refine ⟨decodeBeat_append 0#2, ?_, ?_, ?_, compress_IV_zeroBlock⟩
  · intro s d f hm hlt hf
    rw [exec_data d hm, pushByte_partial f hlt hf]
    rfl
  · rintro s d blk hm hfull rfl
    rw [exec_data d hm, pushByte_full hfull]
    rfl
  · intro s t d hm hexec
    have ht : (s.pushByte d).quiet = t := Host.Outcome.next.inj ((exec_data d hm).symm.trans hexec)
    have hbuf : t.buf = s.buf.set s.fill.val d s.fill.isLt := by
      rw [← ht, State.quiet_buf, State.pushByte_buf]
    constructor
    · simp only [hbuf, Vector.getElem_set_self]
    · intro i hi hne
      simp only [hbuf, Vector.getElem_set_ne s.fill.isLt hi hne.symm]

/-! ### END -/

theorem exec_endBeat {s : State} (x : Byte) (hm : s.mode = .stream) :
    exec (.endBeat x) s = .next { s.padAndFold.emitDigest with fill := 0, mode := .idle } :=
  whenStream_stream _ hm

/-- With nothing in BUF no block is folded. -/
theorem exec_endBeat_empty {s : State} (x : Byte) (hm : s.mode = .stream) (hfill : s.fill = 0) :
    exec (.endBeat x) s =
      .next { s with phase := .final, fill := 0, mode := .idle, rsp := some (.okDigest (fin s.cv) (hex (fin s.cv))) } := by
  rw [exec_endBeat x hm, padAndFold_zero hfill]
  rfl

/-- A partial block is padded, stored and folded. -/
theorem exec_endBeat_partial {s : State} (x : Byte) {c : Word} (hm : s.mode = .stream) (hfill : s.fill ≠ 0)
    (hc : c = compress s.cv (mix (padFrom s.fill.val s.buf))) :
    exec (.endBeat x) s =
      .next { s with buf := padFrom s.fill.val s.buf, cv := c, phase := .final, fill := 0, mode := .idle,
                     rsp := some (.okDigest (fin c) (hex (fin c))) } := by
  subst hc
  rw [exec_endBeat x hm, padAndFold_partial hfill]
  rfl

/-- The padded block is the one with BUF's bytes below n and zeros from n on. -/
theorem eq_padFrom {n : Nat} {buf blk : Block}
    (h : ∀ (i : Nat) (hi : i < 64), blk[i] = if i < n then buf[i] else 0#8) : blk = padFrom n buf :=
  Vector.ext fun i hi => (h i hi).trans (padFrom_getElem n buf i hi).symm

/-- R83's example, the padding: three bytes in BUF and whatever stands behind them become the one block of "abc". -/
theorem padFrom_abc {buf : Block} (h0 : buf[0] = 0x61#8) (h1 : buf[1] = 0x62#8) (h2 : buf[2] = 0x63#8) :
    padFrom 3 buf = streamBlock [0x61#8, 0x62#8, 0x63#8] 0 := by
  refine (eq_padFrom fun i hi => ?_).symm
  rw [streamBlock_getElem _ _ _ hi]
  match i with
  | 0 => exact h0.symm
  | 1 => exact h1.symm
  | 2 => exact h2.symm
  | j + 3 => simp

/-- R83's example, the fold. -/
theorem compress_IV_abc :
    compress Config.IV (mix (streamBlock [0x61#8, 0x62#8, 0x63#8] 0)) = 0x5021F77850688CE3#64 := by
  decide +kernel

/-- R83's example, the digest. -/
theorem digestPort_fin_abc :
    digestPort (fin 0x5021F77850688CE3#64) =
      0xe9c999a1987586ec73361dca9544cfae0f30517b5c2e0552e4c3df01e6c9ca1c#256 := by
  decide +kernel

/-- Settles O20: FILL decides whether a padded block is folded before the digest; the example is the second case. -/
theorem endEffect : Obligations.EndEffect := by
  refine ⟨decodeBeat_append 1#2, fun s x => exec_endBeat_empty x, ?_, ?_⟩
  · intro s x blk c hm hfill hblk hc
    obtain rfl := eq_padFrom hblk
    exact exec_endBeat_partial x hm hfill hc
  · intro s x hm hfill hcv h0 h1 h2
    have hne : s.fill ≠ 0 := by rw [hfill]; decide
    have hfold : 0x5021F77850688CE3#64 = compress s.cv (mix (padFrom s.fill.val s.buf)) := by
      rw [hfill, hcv]
      exact (padFrom_abc h0 h1 h2 ▸ compress_IV_abc).symm
    exact ⟨_, _, exec_endBeat_partial x hm hne hfold, rfl, rfl, digestPort_fin_abc⟩

end Sys2Proof.Machine
end

section
/-! PROOFS of the family 41_mixer.md: the rotate (R100), the words of a block (R101) and the XOR of the rotated words
(R102). -/

namespace Sys2Proof.Machine

/-! ### ROTL1 -/

/-- Bit 63 wraps round to bit 0. -/
theorem getLsbD_rotl1_zero (w : Word) : (rotl1 w).getLsbD 0 = w.getLsbD 63 := by
  rw [getLsbD_rotl1 w 0 (by decide), if_pos rfl]

/-- Every other bit comes from the place below it. -/
theorem getLsbD_rotl1_pos (w : Word) (i : Nat) (hpos : 1 ≤ i) (hi : i ≤ 63) :
    (rotl1 w).getLsbD i = w.getLsbD (i - 1) := by
  rw [getLsbD_rotl1 w i (Nat.lt_succ_of_le hi), if_neg (Nat.ne_of_gt hpos)]

/-- Settles O24: the two kinds of bits, then the values R100 prints. -/
theorem rotateBits : Obligations.RotateBits :=
  ⟨getLsbD_rotl1_zero, getLsbD_rotl1_pos, by decide, by decide, by decide, by decide⟩

/-! ### The words of a block -/

/-- The eight bytes that BE64 takes for word j. -/
theorem map_range_getD_wordBytes (blk : Block) (j : Fin 8) :
    (List.range 8).map (fun k => blk.toList.getD (8 * j.val + k) 0#8) =
      [blk[8 * j.val], blk[8 * j.val + 1], blk[8 * j.val + 2], blk[8 * j.val + 3],
        blk[8 * j.val + 4], blk[8 * j.val + 5], blk[8 * j.val + 6], blk[8 * j.val + 7]] := by
  have hrange : List.range 8 = [0, 1, 2, 3, 4, 5, 6, 7] := rfl
  simp (disch := omega) only [hrange, List.map_cons, List.map_nil, getD_toList, Nat.add_zero]

theorem wordOf_toNat (blk : Block) (j : Fin 8) :
    (wordOf blk j).toNat = beNat ((List.range 8).map fun k => blk.toList.getD (8 * j.val + k) 0#8) := by
  rw [wordOf, be64_toNat, map_range_getD_wordBytes]

/-- Settles O25: the number of the bytes, the slice of CMD_BLK, and R101's example. -/
theorem wordIsBigEndian : Obligations.WordIsBigEndian :=
  ⟨wordOf_toNat, wordOf_blockOfPort, by decide +kernel, by decide +kernel⟩

/-! ### MIX -/

/-- XOR lets two neighbours of an accumulation change places, so the order of the whole is free. -/
theorem foldl_xor_perm {α : Type} (f : α → Word) {l m : List α} (h : l.Perm m) (c : Word) :
    l.foldl (fun acc a => acc ^^^ f a) c = m.foldl (fun acc a => acc ^^^ f a) c := by
  refine h.foldl_eq' (fun a _ b _ acc => ?_) c
  calc acc ^^^ f a ^^^ f b
      = acc ^^^ (f a ^^^ f b) := BitVec.xor_assoc ..
    _ = acc ^^^ (f b ^^^ f a) := by rw [BitVec.xor_comm (f a)]
    _ = acc ^^^ f b ^^^ f a := (BitVec.xor_assoc ..).symm

/-- R102's accumulation, in whatever order it takes the words. -/
theorem mix_eq_foldl_perm (blk : Block) {order : List (Fin 8)} (h : order.Perm (List.finRange 8)) :
    mix blk = order.foldl (fun acc j => acc ^^^ rotl1 (wordOf blk j)) 0#64 :=
  (mix_eq_foldl blk).trans (foldl_xor_perm _ h.symm _)

/-- The bytes of a block, given with zeros beyond the end of s, make it the first block of s. -/
theorem eq_streamBlock_zero {s : List Byte} {blk : Block}
    (h : ∀ (i : Nat) (hi : i < 64), blk[i] = s.getD i 0x00#8) : blk = streamBlock s 0 :=
  Vector.ext fun i hi => by rw [h i hi, streamBlock_getElem s 0 i hi, Nat.mul_zero, Nat.zero_add]

/-- R102's example: the block of "abc". -/
theorem mix_abc : mix (streamBlock [0x61#8, 0x62#8, 0x63#8] 0) = 0xC2C4C60000000000#64 := by
  decide +kernel

/-- Settles O26: the order of the words is free, and the example's bytes are the block of "abc". -/
theorem mixInAnyOrder : Obligations.MixInAnyOrder :=
  ⟨fun blk _ h => mix_eq_foldl_perm blk h, fun _ h => eq_streamBlock_zero h ▸ mix_abc⟩

end Sys2Proof.Machine
end

section
/-! PROOFS of the family 42_compressor.md: COMPRESS on natural numbers (R110). -/

namespace Sys2Proof.Machine

/-- Steps 1 and 2: the XOR of the operands, times P, with the low 64 bits kept. -/
theorem toNat_xor_mul_P (c m : Word) :
    ((c ^^^ m) * Config.P).toNat = ((c.toNat ^^^ m.toNat) * 0x100000001B3) % 2 ^ 64 := by
  rw [BitVec.toNat_mul, BitVec.toNat_xor, P_toNat]

/-- Step 3: the logical right shift by S is the quotient by 2^33. -/
theorem toNat_xor_ushiftRight_S (w : Word) :
    (w ^^^ w >>> Config.S).toNat = w.toNat ^^^ (w.toNat / 2 ^ 33) := by
  rw [BitVec.toNat_xor, BitVec.toNat_ushiftRight, Nat.shiftRight_eq_div_pow, Config.S]

/-- R110's three steps; the product is reduced before it is shifted. -/
theorem compress_toNat {c m : Word} {x1 x2 : Nat} (h1 : x1 = c.toNat ^^^ m.toNat)
    (h2 : x2 = (x1 * 0x100000001B3) % 2 ^ 64) : (compress c m).toNat = x2 ^^^ (x2 / 2 ^ 33) := by
  have hprod : ((c ^^^ m) * Config.P).toNat = x2 := by rw [toNat_xor_mul_P, h2, h1]
  rw [compress_eq, toNat_xor_ushiftRight_S, hprod]

/-- Settles O28: the three steps on numbers, then the value that R110 prints. -/
theorem compressArithmetic : Obligations.CompressArithmetic :=
  ⟨fun _ _ _ _ => compress_toNat, by decide⟩

end Sys2Proof.Machine
end

section
/-! PROOFS of the family 43_hasher_control.md: INIT (R120), UPDATE (R121) and FINALIZE (R122). -/

namespace Sys2Proof.Machine

/-! ### INIT -/

theorem exec_init {s : State} (hm : s.mode = .idle) : exec .init s = .next (s.initialise.respond .ok) :=
  whenIdle_idle _ hm

/-- By R29 (iv) CV already holds IV in PHASE = RESET. -/
theorem initialise_of_reset {s : State} (hinv : s.Inv) (hp : s.phase = .reset) : s.initialise = s := by
  rw [State.initialise, ← hinv.resetIV hp, ← hp]

/-- Settles O14: INIT is one initialise and the response Ok, and its own result meets the same description again. -/
theorem initEffect : Obligations.InitEffect := by
  refine ⟨fun _ => rfl, fun s hm => exec_init hm, ?_, ?_⟩
  · intro s t hm hexec
    obtain rfl : s.initialise.respond .ok = t := Host.Outcome.next.inj ((exec_init hm).symm.trans hexec)
    exact exec_init hm
  · intro s hinv hm hp
    rw [exec_init hm, initialise_of_reset hinv hp]
    rfl

/-! ### FINALIZE -/

theorem exec_finalize {s : State} (hm : s.mode = .idle) : exec .finalize s = .next s.emitDigest :=
  whenIdle_idle _ hm

/-- FIN(IV), the digest of the empty stream. -/
theorem digestPort_fin_IV :
    digestPort (fin Config.IV) = 0xed0b4dd158a46dc424a660c0e9aaa52558406cb7c106391897bb07fd8dc3ba99#256 := by
  decide +kernel

/-- Settles O17: FINALIZE is one emitDigest, which does not write the CV that it reads. -/
theorem finalizeEffect : Obligations.FinalizeEffect := by
  refine ⟨fun _ => rfl, fun s hm => exec_finalize hm, ?_, ?_, digestPort_fin_IV⟩
  · intro s t hm hexec
    obtain rfl : s.emitDigest = t := Host.Outcome.next.inj ((exec_finalize hm).symm.trans hexec)
    exact exec_finalize hm
  · intro s hinv hm hp
    refine ⟨_, exec_finalize hm, ?_⟩
    rw [State.emitDigest_rsp, hinv.resetIV hp]

/-! ### UPDATE -/

theorem exec_update {s : State} (blk : List Byte) (hm : s.mode = .idle) :
    exec (.update blk) s = .next (s.foldBytes blk (State.respond .ok)) :=
  whenIdle_idle _ hm

@[simp] theorem foldBytes_toList (blk : Block) (k : State → State) (s : State) :
    s.foldBytes blk.toList k = k (s.fold blk) := by
  rw [State.foldBytes, blockOfBytes_toList]

theorem foldBytes_of_length_ne {bytes : List Byte} (k : State → State) (s : State) (hl : bytes.length ≠ 64) :
    s.foldBytes bytes k = s.takeException .blockSize := by
  rw [State.foldBytes, blockOfBytes_none hl]

/-! ### Any value can be folded onto any CV: MIX is onto, and COMPRESS has an inverse -/

theorem rotl1_rotateRight (w : Word) : rotl1 (w.rotateRight 1) = w := by
  refine BitVec.eq_of_getLsbD_eq fun i hi => ?_
  rw [getLsbD_rotl1 _ i hi]
  split
  case isTrue h => subst h; simp
  case isFalse h =>
    have hlt : i - 1 < 63 := by omega
    have hsucc : 1 + (i - 1) = i := by omega
    simp [BitVec.getLsbD_rotateRight, hlt, hsucc]

/-- The block of BE8(m) and 56 zero bytes. -/
def firstWordBlock (m : Word) : Block :=
  Vector.ofFn fun i => if i.val < 8 then m.extractLsb' (56 - 8 * i.val) 8 else 0#8

@[simp] theorem wordOf_firstWordBlock (m : Word) (j : Fin 8) :
    wordOf (firstWordBlock m) j = if j.val = 0 then m else 0#64 :=
  wordOf_firstWord m j

theorem mix_firstWordBlock (m : Word) : mix (firstWordBlock m) = rotl1 m := by
  have hzero : rotl1 0#64 = 0#64 := by decide
  simp [mix, hzero]

theorem mix_surjective : Function.Surjective mix :=
  fun m => ⟨firstWordBlock (m.rotateRight 1), by rw [mix_firstWordBlock, rotl1_rotateRight]⟩

/-- COMPRESS sees its operands only through their XOR, so they may change places. -/
theorem compress_comm (c m : Word) : compress c m = compress m c := by
  rw [compress_eq, compress_eq, BitVec.xor_comm c m]

/-- Undoing the diffusion and multiplying by PINV undoes COMPRESS. -/
theorem compress_decompress (y m : Word) : compress (decompress y m) m = y := by
  have hxor : decompress y m ^^^ m = (y ^^^ y >>> 33) * pinv := by
    rw [decompress, Config.S, BitVec.xor_assoc, BitVec.xor_self, BitVec.xor_zero]
  have hprod : (decompress y m ^^^ m) * Config.P = y ^^^ y >>> 33 := by
    rw [hxor, BitVec.mul_assoc, BitVec.mul_comm pinv, P_mul_pinv, BitVec.mul_one]
  rw [compress_eq, hprod, Config.S, diffuse_diffuse]

/-- R121's corner cases (c) and (d) are the values c and IV of y. -/
theorem exists_block_compress_eq (c y : Word) : ∃ blk : Block, compress c (mix blk) = y := by
  obtain ⟨blk, hblk⟩ := mix_surjective (decompress y c)
  exact ⟨blk, by rw [hblk, compress_comm, compress_decompress]⟩

/-- Settles O15: 64 bytes are folded and any other operand is BlockSize; then R121's examples and its corner cases. -/
theorem updateEffect : Obligations.UpdateEffect := by
  refine ⟨decodeCmd_update, ?_, ?_, compress_IV_zeroBlock, ?_, ?_⟩
  · intro s blk hm
    rw [exec_update _ hm, foldBytes_toList]
    rfl
  · intro s blk hm hl
    refine ⟨s.takeException .blockSize, ?_, rfl, rfl, rfl⟩
    rw [exec_update _ hm, foldBytes_of_length_ne _ s hl]
  · intro blk hblk
    obtain rfl := eq_streamBlock_zero hblk
    exact ⟨mix_abc, compress_IV_abc⟩
  · exact fun c => ⟨exists_block_compress_eq c c, exists_block_compress_eq c Config.IV⟩

end Sys2Proof.Machine
end

section
/-! PROOFS of the family 44_finalizer.md: the hexadecimal form of a digest (R147). -/

namespace Sys2Proof.Machine

/-! ### The digits -/

/-- Neither sum leaves 8 bits: the greatest digit is 0x66. -/
theorem hexDigit_toNat (n : BitVec 4) :
    (hexDigit n).toNat = if n.toNat ≤ 9 then 0x30 + n.toNat else 0x61 + (n.toNat - 10) := by
  have hn : n.toNat < 16 := n.isLt
  unfold hexDigit
  split
  case isTrue => exact Nat.mod_eq_of_lt (by omega)
  case isFalse => exact Nat.mod_eq_of_lt (by omega)

/-! ### The nibbles of a byte -/

theorem highNibble_toNat (b : Byte) : (b.extractLsb' 4 4).toNat = b.toNat / 16 := by
  have hb : b.toNat < 256 := b.isLt
  rw [BitVec.extractLsb'_toNat, Nat.shiftRight_eq_div_pow]
  omega

theorem lowNibble_toNat (b : Byte) : (b.extractLsb' 0 4).toNat = b.toNat % 16 := by
  rw [BitVec.extractLsb'_toNat, Nat.shiftRight_zero]

/-! ### The characters -/

theorem hex_getElem_even (d : Digest) (i : Nat) (h : i < 32) :
    (hex d)[2 * i] = hexDigit (d[i].extractLsb' 4 4) := by
  have hmod : 2 * i % 2 = 0 := by omega
  have hdiv : 2 * i / 2 = i := by omega
  simp [hex, hmod, hdiv]

theorem hex_getElem_odd (d : Digest) (i : Nat) (h : i < 32) :
    (hex d)[2 * i + 1] = hexDigit (d[i].extractLsb' 0 4) := by
  have hdiv : (2 * i + 1) / 2 = i := by omega
  simp [hex, hdiv]

/-- Settles O32: each character is the digit of one nibble of its byte, the high nibble at the even place. -/
theorem hexDigits : Obligations.HexDigits := by
  rintro d i h hi lo rfl rfl
  constructor
  · rw [hex_getElem_even d i h, hexDigit_toNat, highNibble_toNat]
  · rw [hex_getElem_odd d i h, hexDigit_toNat, lowNibble_toNat]

end Sys2Proof.Machine
end

section
/-! PROOFS of the family 60_exceptions.md: IoFail (R160), BlockSize (R161) and BadBeat (R163). -/

namespace Sys2Proof.Machine

/-! ### IoFail -/

theorem exec_fail {s : State} (e : Byte) (hm : s.mode = .stream) :
    exec (.fail e) s = .next (s.takeException (.ioFail e)) :=
  whenStream_stream _ hm

/-- Of the responses an instruction can emit only FAIL's has the code IO_FAIL, and it carries the failure code. -/
theorem eq_fail_of_exec_ioFail {i : Instr} {s t : State} {e : Byte} (h : exec i s = .next t)
    (hr : t.rsp = some (.err .ioFail e)) : i = .fail e := by
  obtain ⟨-, hx⟩ | ⟨blk, -, hx⟩ | ⟨blk, -, -, hx⟩ | ⟨-, d, x, hx⟩ | ⟨e', rfl, hx⟩ | ⟨x, -, hx⟩ := exec_rsp_cases h hr
  all_goals cases hx
  rfl

/-- Settles O21: FAIL takes IoFail in MODE = STREAM, and no other instruction emits that response. -/
theorem failTakesIoFail : Obligations.FailTakesIoFail :=
  ⟨decodeBeat_append 2#2, fun _ e hm => exec_fail e hm, fun _ => ⟨rfl, rfl, rfl⟩,
    fun _ _ _ _ => eq_fail_of_exec_ioFail⟩

/-! ### BadBeat -/

theorem exec_rsvd {s : State} (x : Byte) (hm : s.mode = .stream) :
    exec (.rsvd x) s = .next (s.takeException (.badBeat x)) :=
  whenStream_stream _ hm

/-- Settles O22: RSVD takes BadBeat in MODE = STREAM. -/
theorem rsvdTakesBadBeat : Obligations.RsvdTakesBadBeat :=
  ⟨decodeBeat_append 3#2, fun _ x hm => exec_rsvd x hm, fun _ => ⟨rfl, rfl⟩⟩

/-! ### BlockSize -/

theorem exec_update_of_length_ne {s : State} {blk : List Byte} (hm : s.mode = .idle) (hl : blk.length ≠ 64) :
    exec (.update blk) s = .next (s.takeException .blockSize) := by
  rw [exec_update blk hm, foldBytes_of_length_ne _ s hl]

/-- In HALT neither port can accept, so without a reset the core waits. -/
theorem step_halt {s : State} (hm : s.mode = .halt) (hrst : s.rstAsserted = false) : step s = .next s.tick.quiet := by
  have hp : s.tick.presented = none := by rw [State.presented, State.tick_mode, hm]
  exact step_wait hrst hp

/-- No abort sequence but BlockSize's enters HALT. -/
theorem takeException_mode_ne_halt {x : Exc} {s : State} (hx : x ≠ .blockSize) (hm : s.mode ≠ .halt) :
    (s.takeException x).mode ≠ .halt := by
  cases x with
  | blockSize => exact absurd rfl hx
  | illegalCmd => exact hm
  | ioFail | badBeat => exact Mode.noConfusion

/-- The one way into HALT is an UPDATE of an operand that is not 64 bytes. -/
theorem exec_mode_ne_halt {i : Instr} {s t : State} (h : exec i s = .next t) (hm : s.mode ≠ .halt)
    (hlen : ∀ blk, i = .update blk → blk.length = 64) : t.mode ≠ .halt := by
  obtain ⟨rfl, -⟩ | ⟨-, ⟨-, rfl⟩ | ⟨blk, -, rfl⟩ | ⟨blk, hi, hl, -⟩ | ⟨-, rfl⟩ | ⟨-, rfl⟩⟩ |
    ⟨-, ⟨d, -, rfl⟩ | ⟨x, -, rfl⟩ | ⟨e, -, rfl⟩ | ⟨x, -, rfl⟩⟩ := exec_cases h
  · exact hm
  · exact hm
  · exact hm
  · exact absurd (hlen blk hi) hl
  · exact hm
  · exact Mode.noConfusion
  · rwa [State.quiet_mode, State.pushByte_mode]
  · exact Mode.noConfusion
  · exact takeException_mode_ne_halt Exc.noConfusion hm
  · exact takeException_mode_ne_halt Exc.noConfusion hm

/-- A reset goes to IDLE, a wait and IllegalCmd keep MODE, and every decoded UPDATE has 64 bytes. -/
theorem step_mode_ne_halt {s t : State} (h : step s = .next t) (hm : s.mode ≠ .halt) : t.mode ≠ .halt := by
  obtain ⟨-, rfl⟩ | ⟨-, -, rfl⟩ | ⟨c, rest, i, -, -, -, hd, hexec⟩ | ⟨c, rest, -, -, -, -, rfl⟩ |
    ⟨b, rest, -, -, -, hexec⟩ := step_cases h
  · exact Mode.noConfusion
  · exact hm
  · exact exec_mode_ne_halt hexec hm fun blk hi => decodeCmd_update_length (hi ▸ hd)
  · exact hm
  · exact exec_mode_ne_halt hexec hm fun blk hi => absurd hi (decodeBeat_ne_update b blk)

/-- R69's table of the codes that a step emits has no BLOCK_SIZE. -/
theorem EmittedFor.code_ne_blockSize {answer : Except Reject Instr} {r : Response} (h : EmittedFor answer r) :
    r.code ≠ 0x02#8 := by
  obtain ⟨hcode, -⟩ | ⟨hcode, -⟩ | ⟨hcode, -⟩ | ⟨hcode, -⟩ | ⟨hcode, -⟩ := h
  all_goals
    rw [hcode]
    decide

theorem step_rsp_ne_blockSize {s t : State} (h : step s = .next t) (info : Byte) :
    t.rsp ≠ some (.err .blockSize info) := by
  intro hr
  obtain ⟨w, -, hw⟩ := step_emittedFor h hr
  exact hw.code_ne_blockSize rfl

/-- Settles O16: the exception as UPDATE takes it, HALT as a state that only waits, and no step that goes there. -/
theorem blockSizeException : Obligations.BlockSizeException := by
  refine ⟨fun s blk => exec_update_of_length_ne, rfl, ?_, ?_⟩
  · intro s t hm hrst hstep
    obtain rfl : s.tick.quiet = t := Host.Outcome.next.inj ((step_halt hm hrst).symm.trans hstep)
    exact ⟨hm, rfl, rfl, rfl⟩
  · exact fun s t hm hstep => ⟨step_mode_ne_halt hstep hm, step_rsp_ne_blockSize hstep⟩

end Sys2Proof.Machine
end

section
/-! PROOFS about the words on both ports (30_encoding.md sections 2 to 4): decoding and encoding agree in both
directions, and the decoder follows the opcode table. -/

namespace Sys2Proof.Machine

/-! ### The beat words, one kind at a time -/

@[simp] theorem decodeBeat_data (d : Byte) : decodeBeat (beatWord 0#2 d) = .data d := decodeBeat_beatWord 0#2 d
@[simp] theorem decodeBeat_endBeat (x : Byte) : decodeBeat (beatWord 1#2 x) = .endBeat x := decodeBeat_beatWord 1#2 x
@[simp] theorem decodeBeat_fail (e : Byte) : decodeBeat (beatWord 2#2 e) = .fail e := decodeBeat_beatWord 2#2 e
@[simp] theorem decodeBeat_rsvd (x : Byte) : decodeBeat (beatWord 3#2 x) = .rsvd x := decodeBeat_beatWord 3#2 x

/-- Every beat word is a kind and a data field, and the four kinds are those of R67. -/
theorem beatWord_cases {motive : BeatWord → Prop} (data : ∀ d, motive (beatWord 0#2 d))
    (endBeat : ∀ x, motive (beatWord 1#2 x)) (fail : ∀ e, motive (beatWord 2#2 e))
    (rsvd : ∀ x, motive (beatWord 3#2 x)) (b : BeatWord) : motive b := by
  rw [← beatWord_kind_data b]
  obtain hk | hk | hk | hk := kind_cases (beatKind b)
  all_goals rw [hk]
  · exact data _
  · exact endBeat _
  · exact fail _
  · exact rsvd _

/-- A beat word from the 256 words of kind k. -/
theorem eq_beatWord_of_range (k : BitVec 2) {w : BeatWord} (hlow : 256 * k.toNat ≤ w.toNat)
    (hhigh : w.toNat < 256 * k.toNat + 256) : w = beatWord k (BitVec.ofNat 8 w.toNat) := by
  have hdata : (beatData w).toNat < 256 := (beatData w).isLt
  have hsplit := beatWord_toNat_split w
  have hkind : beatKind w = k := BitVec.eq_of_toNat_eq (by omega)
  calc w = beatWord (beatKind w) (beatData w) := (beatWord_kind_data w).symm
    _ = beatWord k (BitVec.ofNat 8 w.toNat) := by rw [hkind, beatData_eq_ofNat]

/-- Settles O5: each range is that of one kind. -/
theorem beatWordRanges : Obligations.BeatWordRanges := by
  refine fun w => ⟨fun hhigh => ?_, fun hlow hhigh => ?_, fun hlow hhigh => ?_, fun hlow => ?_⟩
  · exact (congrArg decodeBeat (eq_beatWord_of_range 0#2 (Nat.zero_le _) hhigh)).trans (decodeBeat_data _)
  · exact (congrArg decodeBeat (eq_beatWord_of_range 1#2 hlow hhigh)).trans (decodeBeat_endBeat _)
  · exact (congrArg decodeBeat (eq_beatWord_of_range 2#2 hlow hhigh)).trans (decodeBeat_fail _)
  · exact (congrArg decodeBeat (eq_beatWord_of_range 3#2 hlow w.isLt)).trans (decodeBeat_rsvd _)

/-- Settles O1: the ten words, decoded. -/
theorem specWordsDecode : Obligations.SpecWordsDecode :=
  ⟨rfl, by decide +kernel, rfl, rfl, rfl, rfl, rfl, rfl, rfl, rfl⟩

/-! ### Decoding and encoding -/

/-- Settles O2: one word for each instruction; UPDATE's 64 bytes survive CMD_BLK. -/
theorem decodeEncodeAgree : Obligations.DecodeEncodeAgree := by
  intro i hwf
  cases i with
  | init | finalize | hash => rfl
  | update blk =>
    have hlen : blk.length = 64 := eq_of_beq hwf
    rw [encode, decode, decodeCmd_update, blockOfPort_portOfBytes hlen]
  | data d => exact congrArg Except.ok (decodeBeat_data d)
  | endBeat x => exact congrArg Except.ok (decodeBeat_endBeat x)
  | fail e => exact congrArg Except.ok (decodeBeat_fail e)
  | rsvd x => exact congrArg Except.ok (decodeBeat_rsvd x)

theorem decodeCmd_wellFormed {c : CmdWord} {i : Instr} (h : decodeCmd c = .ok i) : i.WellFormed := by
  cases i with
  | update blk => exact beq_of_eq (decodeCmd_update_length h)
  | _ => rfl

theorem decodeBeat_wellFormed (b : BeatWord) : (decodeBeat b).WellFormed := by
  cases h : decodeBeat b with
  | update blk => exact absurd h (decodeBeat_ne_update b blk)
  | _ => rfl

theorem decode_wellFormed {w : PortWord} {i : Instr} (h : decode w = .ok i) : i.WellFormed := by
  cases w with
  | cmd c => exact decodeCmd_wellFormed h
  | beat b => exact Except.ok.inj h ▸ decodeBeat_wellFormed b

/-- The core uses every bit of a beat word. -/
theorem encode_decodeBeat (b : BeatWord) : encode (decodeBeat b) = .beat b := by
  cases b using beatWord_cases with
  | data d => rw [decodeBeat_data]; rfl
  | endBeat x => rw [decodeBeat_endBeat]; rfl
  | fail e => rw [decodeBeat_fail]; rfl
  | rsvd x => rw [decodeBeat_rsvd]; rfl

/-- Of a command word the core uses CMD_OP and, for UPDATE, CMD_BLK. -/
theorem encode_of_decodeCmd {c : CmdWord} {i : Instr} (h : decodeCmd c = .ok i) :
    ∃ c', encode i = .cmd c' ∧ c'.op = c.op ∧ (c.op = 0x02#8 → c'.blk = c.blk) := by
  obtain ⟨hop, rfl⟩ | ⟨hop, rfl⟩ | ⟨hop, rfl⟩ | ⟨hop, rfl⟩ := decodeCmd_ok h
  case inr.inl => exact ⟨_, rfl, hop.symm, fun _ => portOfBytes_blockOfPort c.blk⟩
  all_goals
    refine ⟨_, rfl, hop.symm, fun hupdate => ?_⟩
    exact absurd (hop.symm.trans hupdate) (by decide)

/-- Settles O3: what each port's decoder accepts, encoded again. -/
theorem encodeDecodeAgree : Obligations.EncodeDecodeAgree :=
  ⟨fun _ _ => decode_wellFormed, encode_decodeBeat, fun _ _ => encode_of_decodeCmd⟩

/-! ### The opcode table -/

/-- The word of an instruction matches the instruction's row and no other. -/
theorem matchingRows_encode (i : Instr) : (matchingRows (encode i)).map OpRow.mnemonic = [i.mnemonic] := by
  cases i with
  | init => exact Laws.EncodedRow.init.2
  | update blk => exact (Laws.EncodedRow.update blk).2
  | finalize => exact Laws.EncodedRow.finalize.2
  | hash => exact Laws.EncodedRow.hash.2
  | data d => exact (Laws.EncodedRow.data d).2
  | endBeat x => exact (Laws.EncodedRow.endBeat x).2
  | fail e => exact (Laws.EncodedRow.fail e).2
  | rsvd x => exact (Laws.EncodedRow.rsvd x).2

/-- The table reads CMD_OP alone. -/
theorem matchingRows_cmd_congr {c c' : CmdWord} (h : c.op = c'.op) :
    matchingRows (.cmd c) = matchingRows (.cmd c') := by
  rw [matchingRows, matchingRows, h]

theorem matchingRows_reserved {c : CmdWord} (h : c.op = 0x00#8 ∨ 5 ≤ c.op.toNat) : matchingRows (.cmd c) = [] := by
  have hops : ∀ op : Byte, (op = 0x00#8 ∨ 5 ≤ op.toNat) → matchingRows (.cmd ⟨op, 0#512⟩) = [] := by decide +kernel
  exact (matchingRows_cmd_congr rfl).trans (hops c.op h)

/-- Settles O6: an accepted word matches the rows of its instruction's own word, and no reserved CMD_OP matches a row. -/
theorem decodeFollowsOpcodeTable : Obligations.DecodeFollowsOpcodeTable := by
  refine ⟨fun b => ?_, fun c i h => ?_, fun c r h => matchingRows_reserved (decodeCmd_error h).2⟩
  · rw [← encode_decodeBeat b, matchingRows_encode]
  · obtain ⟨c', henc, hop, -⟩ := encode_of_decodeCmd h
    rw [matchingRows_cmd_congr hop.symm, ← henc, matchingRows_encode]

end Sys2Proof.Machine
end

section
/-! PROOFS about one step (30_encoding.md sections 2 and 4, 20_memory.md section 6): what it runs, when the core waits,
hardware reset, and what a port that accepts nothing can influence. -/

namespace Sys2Proof.Machine

/-- Settles O13: every case of a step, and every instruction, in its MODE or held, answers a next state. -/
theorem nothingStopsTheCore : Obligations.NothingStopsTheCore :=
  ⟨step_answers, exec_answers⟩

/-! ### The word a step runs -/

theorem step_cmd {s : State} {c : CmdWord} {rest : List CmdWord} (hrst : s.rstAsserted = false)
    (hm : s.mode = .idle) (hc : s.tick.cmdPort = c :: rest) :
    step s = acceptWord (.cmd c) { s.tick with cmdPort := rest } := by
  have hm : s.tick.mode = .idle := hm
  rw [step_accept hrst (presented_idle hm hc), accept_idle hm hc]

theorem step_beat {s : State} {b : BeatWord} {rest : List BeatWord} (hrst : s.rstAsserted = false)
    (hm : s.mode = .stream) (hb : s.tick.strmPort = b :: rest) :
    step s = acceptWord (.beat b) { s.tick with strmPort := rest } := by
  have hm : s.tick.mode = .stream := hm
  rw [step_accept hrst (presented_stream hm hb), accept_stream hm hb]

theorem acceptWord_of_decode {w : PortWord} {i : Instr} (h : decode w = .ok i) (s : State) :
    acceptWord w s = exec i s := by
  rw [acceptWord, h]

/-- Settles O7: the accepted word is consumed, and a word that decodes to i runs exec i. -/
theorem stepRunsDecodedInstr : Obligations.StepRunsDecodedInstr := by
  refine ⟨fun s c rest i hrst hm hc hd => ?_, fun s b rest hrst hm hb => ?_⟩
  · exact (step_cmd hrst hm hc).trans (acceptWord_of_decode (w := .cmd c) hd _)
  · exact step_beat hrst hm hb

/-! ### Waits -/

/-- Nothing is presented to the core on the port that its MODE lets accept. -/
theorem presented_eq_none {s : State}
    (h : (s.mode = .idle ∧ s.cmdPort = []) ∨ (s.mode = .stream ∧ s.strmPort = []) ∨ s.mode = .halt) :
    s.presented = none := by
  obtain ⟨hm, hport⟩ | ⟨hm, hport⟩ | hm := h
  · rw [State.presented, hm, hport]; rfl
  · rw [State.presented, hm, hport]; rfl
  · rw [State.presented, hm]

/-- Settles O10: the three cases are those in which nothing is presented to the core. -/
theorem coreWaits : Obligations.CoreWaits :=
  fun s hrst h => step_wait hrst (presented_eq_none (s := s.tick) h)

/-! ### Hardware reset -/

/-- Settles O11: the step of a reset is `hardwareReset` after `tick`; without one, HALT only waits. -/
theorem hardwareResetEffect : Obligations.HardwareResetEffect := by
  refine ⟨fun s hrst => ⟨s.tick.hardwareReset, step_reset hrst, rfl, rfl, rfl, rfl, rfl, rfl, rfl, rfl, rfl, rfl⟩, ?_⟩
  intro s t hm hstep hleft
  by_contra hrst
  have hrst : s.rstAsserted = false := by simpa using hrst
  obtain rfl : s.tick.quiet = t := Host.Outcome.next.inj ((step_halt hm hrst).symm.trans hstep)
  exact hleft hm

/-! ### HASH, and an instruction in the wrong MODE -/

theorem exec_hash {s : State} (hm : s.mode = .idle) :
    exec .hash s = .next { s.initialise.quiet with fill := 0, mode := .stream } :=
  whenIdle_idle _ hm

/-- Settles O18: HASH initialises the core and opens the stream. -/
theorem hashAcceptance : Obligations.HashAcceptance :=
  ⟨fun _ => rfl, fun _ hm => exec_hash hm⟩

theorem exec_command_held {i : Instr} {s : State} (hi : i.isCommand = true) (hm : s.mode ≠ .idle) :
    exec i s = .next s.quiet := by
  cases i with
  | init | update | finalize | hash => exact whenIdle_not _ hm
  | data | endBeat | fail | rsvd => cases hi

theorem exec_beat_held {i : Instr} {s : State} (hi : i.isCommand = false) (hm : s.mode ≠ .stream) :
    exec i s = .next s.quiet := by
  cases i with
  | init | update | finalize | hash => cases hi
  | data | endBeat | fail | rsvd => exact whenStream_not _ hm

/-- Settles O23: the instruction is held, whichever port it is of. -/
theorem wrongModeChangesNothing : Obligations.WrongModeChangesNothing := by
  rintro i s (⟨hi, hm⟩ | ⟨hi, hm⟩)
  · exact exec_command_held hi hm
  · exact exec_beat_held hi hm

/-! ### The step after the wires are sampled

A step is `tick`, which alone reads the wire changes, and then the transition on what the ports present. -/

/-- The transition on the wires as they stand: a reset, a wait, or the acceptance of the word presented. -/
def State.react (rst : Bool) (u : State) : Host.Outcome State Fault Refusal :=
  if rst then .next u.hardwareReset
  else
    match u.presented with
    | none => held u
    | some w => acceptWord w u.accept

theorem step_eq_react (s : State) : step s = s.tick.react s.rstAsserted := rfl

theorem react_wait {u : State} (h : u.presented = none) : u.react false = .next u.quiet := by
  simp [State.react, h, held]

theorem react_accept {u : State} {w : PortWord} (h : u.presented = some w) :
    u.react false = acceptWord w u.accept := by
  simp [State.react, h]

/-! ### Changes of the ports that a transition does not see -/

/-- The state with other presentations on CMD and STRM and other schedules of RST and of the wire changes. -/
def State.mapPorts (f : List CmdWord → List CmdWord) (g : List BeatWord → List BeatWord) (h : List Bool → List Bool)
    (k : List WireChange → List WireChange) (s : State) : State :=
  { s with cmdPort := f s.cmdPort, strmPort := g s.strmPort, rstPort := h s.rstPort, wirePort := k s.wirePort }

section mapPorts

variable (f : List CmdWord → List CmdWord) (g : List BeatWord → List BeatWord) (h : List Bool → List Bool)
  (k : List WireChange → List WireChange)

@[simp] theorem State.mapPorts_mode (s : State) : (s.mapPorts f g h k).mode = s.mode := rfl
@[simp] theorem State.mapPorts_cmdPort (s : State) : (s.mapPorts f g h k).cmdPort = f s.cmdPort := rfl
@[simp] theorem State.mapPorts_strmPort (s : State) : (s.mapPorts f g h k).strmPort = g s.strmPort := rfl

theorem exec_mapPorts {i : Instr} {s t : State} (hexec : exec i s = .next t) :
    exec i (s.mapPorts f g h k) = .next (t.mapPorts f g h k) := by
  obtain ⟨hcmd, hstrm, hrst, hwire, -, hmapped⟩ :=
    exec_ports hexec (f s.cmdPort) (g s.strmPort) (h s.rstPort) (k s.wirePort)
  rw [State.mapPorts, State.mapPorts, hcmd, hstrm, hrst, hwire]
  exact hmapped

theorem acceptWord_mapPorts {w : PortWord} {s t : State} (haccept : acceptWord w s = .next t) :
    acceptWord w (s.mapPorts f g h k) = .next (t.mapPorts f g h k) := by
  unfold acceptWord at haccept ⊢
  cases hd : decode w with
  | ok i =>
    rw [hd] at haccept
    exact exec_mapPorts f g h k haccept
  | error r =>
    rw [hd] at haccept
    cases haccept
    rfl

variable {f g}

/-- The port that MODE lets accept is not changed. -/
def KeepsOpenPort (f : List CmdWord → List CmdWord) (g : List BeatWord → List BeatWord) (s : State) : Prop :=
  (s.mode = .idle → f = id) ∧ (s.mode = .stream → g = id)

theorem presented_mapPorts {s : State} (hopen : KeepsOpenPort f g s) :
    (s.mapPorts f g h k).presented = s.presented := by
  unfold State.presented
  rw [State.mapPorts_mode]
  cases hm : s.mode with
  | idle => rw [State.mapPorts_cmdPort, hopen.1 hm, id]
  | stream => rw [State.mapPorts_strmPort, hopen.2 hm, id]
  | halt => rfl

theorem accept_mapPorts {s : State} (hopen : KeepsOpenPort f g s) :
    (s.mapPorts f g h k).accept = s.accept.mapPorts f g h k := by
  unfold State.accept
  rw [State.mapPorts_mode]
  cases hm : s.mode with
  | idle => rw [hopen.1 hm]; rfl
  | stream => rw [hopen.2 hm]; rfl
  | halt => rfl

/-- A change of a port that accepts nothing, and of the schedules to come, stays there and changes nothing else. -/
theorem react_mapPorts {rst : Bool} {s t : State} (hopen : rst = false → KeepsOpenPort f g s)
    (hreact : s.react rst = .next t) : (s.mapPorts f g h k).react rst = .next (t.mapPorts f g h k) := by
  cases rst with
  | true =>
    cases hreact
    rfl
  | false =>
    have hpres := presented_mapPorts h k (hopen rfl)
    cases hw : s.presented with
    | none =>
      rw [react_wait hw] at hreact
      rw [react_wait (hpres.trans hw)]
      cases hreact
      rfl
    | some w =>
      rw [react_accept hw] at hreact
      rw [react_accept (hpres.trans hw), accept_mapPorts h k (hopen rfl)]
      exact acceptWord_mapPorts f g h k hreact

end mapPorts

/-- Where CMD accepts nothing, what it presents after the host's change stays there and is seen by nothing. -/
theorem react_cmdPort {rst : Bool} {u t : State} (q : List CmdWord) (hoff : u.mode ≠ .idle ∨ rst = true)
    (h : u.react rst = .next t) : State.react rst { u with cmdPort := q } = .next { t with cmdPort := q } := by
  refine react_mapPorts (f := fun _ => q) (g := id) id id (fun hrst => ⟨fun hm => ?_, fun _ => rfl⟩) h
  obtain hne | hrst' := hoff
  · exact absurd hm hne
  · exact absurd (hrst.symm.trans hrst') (by decide)

/-- Where STRM accepts nothing, what it presents after the host's change stays there and is seen by nothing. -/
theorem react_strmPort {rst : Bool} {u t : State} (q : List BeatWord) (hoff : u.mode ≠ .stream ∨ rst = true)
    (h : u.react rst = .next t) : State.react rst { u with strmPort := q } = .next { t with strmPort := q } := by
  refine react_mapPorts (f := id) (g := fun _ => q) id id (fun hrst => ⟨fun _ => rfl, fun hm => ?_⟩) h
  obtain hne | hrst' := hoff
  · exact absurd hm hne
  · exact absurd (hrst.symm.trans hrst') (by decide)

/-- Wire changes to come are seen by nothing. -/
theorem react_wirePort {rst : Bool} {u t : State} (later : List WireChange) (h : u.react rst = .next t) :
    State.react rst { u with wirePort := later } = .next { t with wirePort := later } :=
  react_mapPorts (f := id) (g := id) id (fun _ => later) (fun _ => ⟨fun _ => rfl, fun _ => rfl⟩) h

/-- Settles O9: the item held is the one that `tick` leaves on its port; and with the port's own item put back, nothing
changes at all. -/
theorem unacceptedItemsAreHeld : Obligations.UnacceptedItemsAreHeld := by
  refine ⟨fun s t q hm hstep _ => ⟨?_, ?_⟩, fun s t q hm hstep _ => ⟨?_, ?_⟩⟩
  · have hsame := react_cmdPort (u := s.tick) s.tick.cmdPort (.inl hm) hstep
    exact congrArg State.cmdPort (Host.Outcome.next.inj (hstep.symm.trans hsame))
  · exact react_cmdPort (u := s.tick) _ (.inl hm) hstep
  · have hsame := react_strmPort (u := s.tick) s.tick.strmPort (.inl hm) hstep
    exact congrArg State.strmPort (Host.Outcome.next.inj (hstep.symm.trans hsame))
  · exact react_strmPort (u := s.tick) _ (.inl hm) hstep

/-- The host's change now made: what the ports present, and the changes left. -/
theorem tick_of_wirePort {s : State} {now : WireChange} {later : List WireChange} (hw : s.wirePort = now :: later) :
    s.tick =
      { s with
        cmdPort := now.cmd.getD s.cmdPort, strmPort := now.strm.getD s.strmPort, rstPort := s.rstPort.tail,
        wirePort := later } := by
  simp [State.tick, State.wireChange, hw]

theorem tick_replaces_cmdPort {s : State} {q : List CmdWord} (h : s.wireChange.cmd = some q) (old : List CmdWord) :
    State.tick { s with cmdPort := old } = s.tick := by
  change { s.tick with cmdPort := s.wireChange.cmd.getD old } = { s.tick with cmdPort := s.wireChange.cmd.getD s.cmdPort }
  rw [h, Option.getD_some, Option.getD_some]

theorem tick_replaces_strmPort {s : State} {q : List BeatWord} (h : s.wireChange.strm = some q) (old : List BeatWord) :
    State.tick { s with strmPort := old } = s.tick := by
  change { s.tick with strmPort := s.wireChange.strm.getD old } =
    { s.tick with strmPort := s.wireChange.strm.getD s.strmPort }
  rw [h, Option.getD_some, Option.getD_some]

/-- Settles O54: a change replaces what the port presented before the step samples it; a change on a port that accepts
nothing, or in a later step, is one that the transition does not see. -/
theorem wiresSampledAtAcceptance : Obligations.WiresSampledAtAcceptance := by
  refine ⟨?_, ?_, ?_, ?_, ?_⟩
  · intro s c rest old hrst hm hc
    refine ⟨step_cmd hrst hm (tick_cmdPort_change hc), ?_⟩
    exact congrArg (State.react s.rstAsserted) (tick_replaces_cmdPort hc old)
  · intro s b rest old hrst hm hb
    refine ⟨step_beat hrst hm (tick_strmPort_change hb), ?_⟩
    exact congrArg (State.react s.rstAsserted) (tick_replaces_strmPort hb old)
  · intro s t now later other hw hstep
    have hother := react_wirePort (u := s.tick) other hstep
    rwa [tick_of_wirePort hw] at hother
  · intro s t now later q hw hoff hstep
    have hother := react_cmdPort (u := s.tick) (q.getD s.cmdPort) hoff hstep
    rwa [tick_of_wirePort hw] at hother
  · intro s t now later q hw hoff hstep
    have hother := react_strmPort (u := s.tick) (q.getD s.strmPort) hoff hstep
    rwa [tick_of_wirePort hw] at hother

end Sys2Proof.Machine
end

section
/-! PROOFS about the Mixer, the Compressor and the Finalizer (41_mixer.md, 42_compressor.md, 44_finalizer.md): MIX is
linear, COMPRESS is invertible, its bit-level forms, and the digests that the spec prints. -/

namespace Sys2Proof.Machine

/-! ### MIX is linear -/

theorem rotateRight_rotl1 (w : Word) : (rotl1 w).rotateRight 1 = w := by
  refine BitVec.eq_of_getLsbD_eq fun i hi => ?_
  by_cases htop : i = 63
  · subst htop
    simpa using getLsbD_rotl1_zero w
  · have hlow : i < 63 := by omega
    have hbit := getLsbD_rotl1_pos w (1 + i) (Nat.le_add_right 1 i) (by omega)
    simp [BitVec.getLsbD_rotateRight, hlow, hbit]

theorem rotl1_injective : Function.Injective rotl1 :=
  Function.LeftInverse.injective (g := fun w : Word => w.rotateRight 1) rotateRight_rotl1

theorem rotl1_bijective : Function.Bijective rotl1 :=
  ⟨rotl1_injective, Function.RightInverse.surjective (g := fun w : Word => w.rotateRight 1) rotl1_rotateRight⟩

/-- Each bit of ROTL1 is one bit of its operand, so it distributes over XOR. -/
theorem rotl1_xor (a b : Word) : rotl1 (a ^^^ b) = rotl1 a ^^^ rotl1 b := by
  refine BitVec.eq_of_getLsbD_eq fun i hi => ?_
  rw [BitVec.getLsbD_xor, getLsbD_rotl1 _ i hi, getLsbD_rotl1 _ i hi, getLsbD_rotl1 _ i hi]
  split
  · exact BitVec.getLsbD_xor
  · exact BitVec.getLsbD_xor

theorem mix_eq_rotl1_wordXor (blk : Block) : mix blk = rotl1 (wordXor blk) := by
  simp only [mix, wordXor, rotl1_xor]

/-- Regrouping the sixteen words, in which XOR is commutative and associative. -/
theorem wordXor_zipWith (a b : Block) : wordXor (Vector.zipWith (· ^^^ ·) a b) = wordXor a ^^^ wordXor b := by
  simp only [wordXor, wordOf_xor]
  ac_rfl

theorem mix_zipWith (a b : Block) : mix (Vector.zipWith (· ^^^ ·) a b) = mix a ^^^ mix b := by
  simp only [mix_eq_rotl1_wordXor, wordXor_zipWith, rotl1_xor]

theorem wordXor_eq_iff (a b : Block) : wordXor a = wordXor b ↔ mix a = mix b := by
  rw [mix_eq_rotl1_wordXor, mix_eq_rotl1_wordXor, rotl1_injective.eq_iff]

/-- Settles O27: MIX is ROTL1, a linear bijection, of the XOR of the words. -/
theorem mixIsLinear : Obligations.MixIsLinear :=
  ⟨rotl1_bijective, rotl1_xor, mix_eq_rotl1_wordXor, mix_zipWith, wordXor_eq_iff, by decide +kernel⟩

/-! ### COMPRESS is invertible -/

/-- The diffusion undoes itself, and PINV undoes the multiplication. -/
theorem decompress_compress (c m : Word) : decompress (compress c m) m = c := by
  have hdiffuse : compress c m ^^^ compress c m >>> Config.S = (c ^^^ m) * Config.P := by
    rw [compress_eq, Config.S, diffuse_diffuse]
  rw [decompress, hdiffuse, BitVec.mul_assoc, P_mul_pinv, BitVec.mul_one, BitVec.xor_assoc, BitVec.xor_self,
    BitVec.xor_zero]

theorem compress_eq_compress_xor (c m : Word) : compress c m = compress (c ^^^ m) 0#64 := by
  rw [compress_eq, compress_eq, BitVec.xor_zero]

/-- Settles O29: `decompress` is the inverse on both sides. -/
theorem compressIsInvertible : Obligations.CompressIsInvertible :=
  ⟨decompress_compress, compress_decompress, compress_eq_compress_xor⟩

/-! ### The derived forms of COMPRESS -/

/-- P is 2^40 + 2^8 + 2^7 + 2^5 + 2^4 + 2 + 1. -/
theorem mul_P_eq_shifts (x : Word) :
    x * Config.P = (x <<< 40) + (x <<< 8) + (x <<< 7) + (x <<< 5) + (x <<< 4) + (x <<< 1) + x := by
  have hP : Config.P = BitVec.twoPow 64 40 + BitVec.twoPow 64 8 + BitVec.twoPow 64 7 + BitVec.twoPow 64 5 +
      BitVec.twoPow 64 4 + BitVec.twoPow 64 1 + 1#64 := by decide
  simp only [hP, BitVec.mul_add, BitVec.mul_one, BitVec.shiftLeft_eq_mul_twoPow]

/-- The shift by 33 brings no bit to the places from 31 on. -/
theorem getLsbD_diffuse (w : Word) (i : Nat) :
    (w ^^^ w >>> Config.S).getLsbD i = (w.getLsbD i ^^ w.getLsbD (i + 33)) := by
  rw [BitVec.getLsbD_xor, BitVec.getLsbD_ushiftRight, Config.S, Nat.add_comm]

/-- Settles O30: the product as a sum of shifts, and its diffusion bit by bit. -/
theorem compressBitForms : Obligations.CompressBitForms := by
  rintro c m x x2 rfl hx2
  have hcompress : compress c m = x2 ^^^ x2 >>> Config.S := by rw [compress_eq, mul_P_eq_shifts, hx2]
  refine ⟨fun i hi => ?_, fun i _ => ?_⟩
  · have htop : x2.getLsbD (i + 33) = false := BitVec.getLsbD_of_ge _ _ (by omega)
    rw [hcompress, getLsbD_diffuse, htop, Bool.xor_false]
  · rw [hcompress, getLsbD_diffuse]

/-! ### Digests -/

/-- Settles O31: four evaluations of the Finalizer, the first of them FIN(IV). -/
theorem finalizerVectors : Obligations.FinalizerVectors :=
  ⟨digestPort_fin_IV, by decide +kernel, by decide +kernel, by decide +kernel⟩

end Sys2Proof.Machine
end

section
/-! PROOFS of rules over all instructions (10_state.md, 30_encoding.md section 5, 43_hasher_control.md section 3): the
invariants, the status wires, the writers of CV and MODE, when a response is due, and BUF's stale bytes. -/

namespace Sys2Proof.Machine

/-! ### The invariants of R29 -/

/-- Settles O41: the reset state is IDLE with FILL = 0 and CV = IV. -/
theorem invariantAtReset : Obligations.InvariantAtReset :=
  ⟨fun _ => rfl, fun _ => rfl, nofun⟩

/-- The invariants speak of MODE, FILL, PHASE and CV alone. -/
theorem State.Inv.of_registers {s t : State} (hinv : s.Inv) (hmode : t.mode = s.mode) (hfill : t.fill = s.fill)
    (hphase : t.phase = s.phase) (hcv : t.cv = s.cv) : t.Inv := by
  obtain ⟨hzero, hiv, hstream⟩ := hinv
  constructor
  · rwa [hmode, hfill]
  · rwa [hphase, hcv]
  · rwa [hmode, hphase]

theorem inv_outside_stream {t : State} (hm : t.mode ≠ .stream) (hfill : t.fill = 0)
    (hiv : t.phase = .reset → t.cv = Config.IV) : t.Inv :=
  ⟨fun _ => hfill, hiv, fun h => absurd h hm⟩

theorem inv_in_stream {t : State} (hm : t.mode = .stream) (hiv : t.phase = .reset → t.cv = Config.IV)
    (hphase : t.phase = .reset ∨ t.phase = .accum) : t.Inv :=
  ⟨fun h => absurd hm h, hiv, fun _ => hphase⟩

/-- A byte that completes a block leaves PHASE = ACCUM; any other leaves PHASE and CV. -/
theorem pushByte_keeps_inv {s : State} (d : Byte) (hinv : s.Inv) (hm : s.mode = .stream) : (s.pushByte d).Inv := by
  have hm' : (s.pushByte d).mode = .stream := by rw [State.pushByte_mode, hm]
  by_cases hfull : s.fill.val = 63
  · have hphase : (s.pushByte d).phase = .accum := by rw [pushByte_full hfull]
    exact inv_in_stream hm' (fun h => absurd (hphase.symm.trans h) Phase.noConfusion) (.inr hphase)
  · have hnext : s.fill.val + 1 < 64 := by omega
    have hpush := pushByte_partial (d := d) (s := s) ⟨_, hnext⟩ (by omega) rfl
    rw [hpush] at hm' ⊢
    exact inv_in_stream hm' hinv.resetIV (hinv.streamPhase hm)

theorem exec_keeps_inv {i : Instr} {s t : State} (hinv : s.Inv) (h : exec i s = .next t) : t.Inv := by
  obtain ⟨rfl, -⟩ | ⟨hm, hcmd⟩ | ⟨hm, hbeat⟩ := exec_cases h
  · exact hinv.of_registers rfl rfl rfl rfl
  · have hm' : s.mode ≠ .stream := by rw [hm]; exact Mode.noConfusion
    have hfill : s.fill = 0 := hinv.fillZero hm'
    obtain ⟨-, rfl⟩ | ⟨blk, -, rfl⟩ | ⟨blk, -, -, rfl⟩ | ⟨-, rfl⟩ | ⟨-, rfl⟩ := hcmd
    · exact inv_outside_stream hm' hfill fun _ => rfl
    · exact inv_outside_stream hm' hfill nofun
    · exact inv_outside_stream Mode.noConfusion rfl hinv.resetIV
    · exact inv_outside_stream hm' hfill nofun
    · exact inv_in_stream rfl (fun _ => rfl) (.inl rfl)
  · obtain ⟨d, -, rfl⟩ | ⟨x, -, rfl⟩ | ⟨e, -, rfl⟩ | ⟨x, -, rfl⟩ := hbeat
    · exact (pushByte_keeps_inv d hinv hm).of_registers rfl rfl rfl rfl
    · exact inv_outside_stream Mode.noConfusion rfl nofun
    · exact inv_outside_stream Mode.noConfusion rfl hinv.resetIV
    · exact inv_outside_stream Mode.noConfusion rfl hinv.resetIV

/-- A reset writes all four registers, a wait and IllegalCmd write none of them. -/
theorem step_keeps_inv {s t : State} (hinv : s.Inv) (h : step s = .next t) : t.Inv := by
  obtain ⟨-, rfl⟩ | ⟨-, -, rfl⟩ | ⟨c, rest, i, -, -, -, -, hexec⟩ | ⟨c, rest, -, -, -, -, rfl⟩ |
    ⟨b, rest, -, -, -, hexec⟩ := step_cases h
  · exact inv_outside_stream Mode.noConfusion rfl fun _ => rfl
  · exact hinv.of_registers rfl rfl rfl rfl
  · exact exec_keeps_inv (s := { s.tick with cmdPort := rest }) (hinv.of_registers rfl rfl rfl rfl) hexec
  · exact hinv.of_registers rfl rfl rfl rfl
  · exact exec_keeps_inv (s := { s.tick with strmPort := rest }) (hinv.of_registers rfl rfl rfl rfl) hexec

/-- Settles O40: case by case, for a step and for an instruction. -/
theorem invariantKept : Obligations.InvariantKept :=
  ⟨fun _ _ => step_keeps_inv, fun _ _ _ => exec_keeps_inv⟩

/-! ### The status wires -/

theorem Phase.bits_spec (p : Phase) :
    p.bits ≠ 3#2 ∧ (p.bits = 0#2 ↔ p = .reset) ∧ (p.bits = 1#2 ↔ p = .accum) := by
  cases p
  all_goals decide

theorem Mode.bits_spec (m : Mode) :
    m.bits ≠ 3#2 ∧ (m.bits = 0#2 ↔ (m == .idle) = true) ∧ (m.bits = 1#2 ↔ (m == .stream) = true) ∧
      ¬((m == .idle) = true ∧ (m == .stream) = true) := by
  cases m
  all_goals decide

/-- Settles O42: the wires are functions of PHASE and MODE, which have three values each. -/
theorem wiresShowRegisters : Obligations.WiresShowRegisters := by
  intro s
  obtain ⟨hphase, hreset, haccum⟩ := s.phase.bits_spec
  obtain ⟨hmode, hidle, hstream, hboth⟩ := s.mode.bits_spec
  exact ⟨rfl, hphase, hmode, hreset, haccum, hidle, hstream, hboth⟩

/-! ### The writers of CV -/

/-- R22: the instructions that write CV, each with the value it writes. -/
def WritesCV (i : Instr) (s t : State) : Prop :=
  (i = .init ∧ t.cv = Config.IV) ∨ (i = .hash ∧ t.cv = Config.IV) ∨
  (∃ blk : Block, i = .update blk.toList ∧ t.cv = compress s.cv (mix blk)) ∨
  (∃ d, i = .data d ∧ s.fill.val = 63 ∧ t.cv = compress s.cv (mix (s.buf.set 63 d))) ∨
  (∃ x, i = .endBeat x ∧ s.fill ≠ 0 ∧ t.cv = compress s.cv (mix t.buf) ∧
    ∀ (k : Nat) (h : k < 64), t.buf[k] = if k < s.fill.val then s.buf[k] else 0x00#8)

theorem pushByte_cv_of_not_full {d : Byte} {s : State} (h : s.fill.val ≠ 63) : (s.pushByte d).cv = s.cv := by
  have hnext : s.fill.val + 1 < 64 := by omega
  rw [pushByte_partial ⟨_, hnext⟩ (by omega) rfl]

theorem exec_writesCV {i : Instr} {s t : State} (h : exec i s = .next t) (hne : t.cv ≠ s.cv) : WritesCV i s t := by
  obtain ⟨rfl, -⟩ | ⟨-, ⟨rfl, rfl⟩ | ⟨blk, rfl, rfl⟩ | ⟨blk, -, -, rfl⟩ | ⟨-, rfl⟩ | ⟨rfl, rfl⟩⟩ |
    ⟨-, ⟨d, rfl, rfl⟩ | ⟨x, rfl, rfl⟩ | ⟨e, -, rfl⟩ | ⟨x, -, rfl⟩⟩ := exec_cases h
  · exact absurd rfl hne
  · exact .inl ⟨rfl, rfl⟩
  · exact .inr (.inr (.inl ⟨blk, rfl, rfl⟩))
  · exact absurd rfl hne
  · exact absurd rfl hne
  · exact .inr (.inl ⟨rfl, rfl⟩)
  · have hfull : s.fill.val = 63 := by
      by_contra hpartial
      exact hne (pushByte_cv_of_not_full hpartial)
    refine .inr (.inr (.inr (.inl ⟨d, rfl, hfull, ?_⟩)))
    rw [State.quiet_cv, pushByte_full hfull]
  · have hfill : s.fill ≠ 0 := fun hempty => by
      exact hne (congrArg State.cv (padAndFold_zero hempty) :)
    refine .inr (.inr (.inr (.inr ⟨x, rfl, hfill, ?_⟩)))
    rw [padAndFold_partial hfill]
    exact ⟨rfl, padFrom_getElem s.fill.val s.buf⟩
  · exact absurd rfl hne
  · exact absurd rfl hne

/-- Settles O36: a reset writes IV, a wait and IllegalCmd write nothing, and exec is the table of R22. -/
theorem writersOfCV : Obligations.WritersOfCV := by
  intro s t hstep hne
  obtain ⟨hrst, rfl⟩ | ⟨-, -, rfl⟩ | ⟨c, rest, i, hrst, hm, hc, hd, hexec⟩ | ⟨c, rest, -, -, -, -, rfl⟩ |
    ⟨b, rest, hrst, hm, hb, hexec⟩ := step_cases hstep
  · exact .inl ⟨hrst, rfl⟩
  · exact absurd rfl hne
  · have hwrites := exec_writesCV (s := { s.tick with cmdPort := rest }) hexec hne
    exact .inr ⟨.cmd c, i, hrst, presented_idle (s := s.tick) hm hc, hd, hwrites⟩
  · exact absurd rfl hne
  · have hwrites := exec_writesCV (s := { s.tick with strmPort := rest }) hexec hne
    exact .inr ⟨.beat b, _, hrst, presented_stream (s := s.tick) hm hb, rfl, hwrites⟩

/-! ### The moves of MODE -/

/-- The instructions that move MODE; UPDATE does so only with an operand that no word carries. -/
theorem exec_mode_moves {i : Instr} {s t : State} (h : exec i s = .next t) (hne : t.mode ≠ s.mode) :
    (i = .hash ∧ t.mode = .stream) ∨ (∃ blk, i = .update blk ∧ blk.length ≠ 64) ∨
      (t.mode = .idle ∧ ((∃ x, i = .endBeat x) ∨ (∃ e, i = .fail e) ∨ ∃ x, i = .rsvd x)) := by
  obtain ⟨rfl, -⟩ | ⟨-, ⟨-, rfl⟩ | ⟨blk, -, rfl⟩ | ⟨blk, rfl, hl, rfl⟩ | ⟨-, rfl⟩ | ⟨rfl, rfl⟩⟩ |
    ⟨-, ⟨d, -, rfl⟩ | ⟨x, rfl, rfl⟩ | ⟨e, rfl, rfl⟩ | ⟨x, rfl, rfl⟩⟩ := exec_cases h
  · exact absurd rfl hne
  · exact absurd rfl hne
  · exact absurd rfl hne
  · exact .inr (.inl ⟨blk, rfl, hl⟩)
  · exact absurd rfl hne
  · exact .inl ⟨rfl, rfl⟩
  · exact absurd (State.pushByte_mode d s) hne
  · exact .inr (.inr ⟨rfl, .inl ⟨x, rfl⟩⟩)
  · exact .inr (.inr ⟨rfl, .inr (.inl ⟨e, rfl⟩)⟩)
  · exact .inr (.inr ⟨rfl, .inr (.inr ⟨x, rfl⟩)⟩)

theorem decodeCmd_isCommand {c : CmdWord} {i : Instr} (h : decodeCmd c = .ok i) : i.isCommand = true := by
  obtain ⟨-, rfl⟩ | ⟨-, rfl⟩ | ⟨-, rfl⟩ | ⟨-, rfl⟩ := decodeCmd_ok h
  all_goals rfl

/-- Settles O37: a command moves MODE only as HASH, a beat only as a terminator. -/
theorem modeTransitions : Obligations.ModeTransitions := by
  intro s t hstep hne
  obtain ⟨hrst, rfl⟩ | ⟨-, -, rfl⟩ | ⟨c, rest, i, -, hm, hc, hd, hexec⟩ | ⟨c, rest, -, -, -, -, rfl⟩ |
    ⟨b, rest, -, hm, hb, hexec⟩ := step_cases hstep
  · exact .inl ⟨hrst, rfl⟩
  · exact absurd rfl hne
  · obtain ⟨rfl, hstream⟩ | ⟨blk, rfl, hl⟩ | ⟨-, hterm⟩ := exec_mode_moves hexec hne
    · exact .inr (.inl ⟨c, hm, by rw [hc]; rfl, hd, hstream⟩)
    · exact absurd (decodeCmd_update_length hd) hl
    · have hcmd := decodeCmd_isCommand hd
      obtain ⟨x, rfl⟩ | ⟨e, rfl⟩ | ⟨x, rfl⟩ := hterm
      all_goals cases hcmd
  · exact absurd rfl hne
  · have hbeat := decodeBeat_isCommand b
    obtain ⟨hi, -⟩ | ⟨blk, hi, -⟩ | ⟨hidle, hterm⟩ := exec_mode_moves hexec hne
    · rw [hi] at hbeat; cases hbeat
    · exact absurd hi (decodeBeat_ne_update b blk)
    · exact .inr (.inr ⟨b, hm, by rw [hb]; rfl, hidle, hterm⟩)

/-! ### When a response is due -/

/-- R74: the decoder's answers for the words whose acceptance owes a response. -/
def OwesResponse (answer : Except Reject Instr) : Prop :=
  answer ≠ .ok .hash ∧ ∀ d, answer ≠ .ok (.data d)

/-- MODE accepts on the port that the instruction stands on. -/
def State.Accepts (s : State) (i : Instr) : Prop :=
  (i.isCommand = true → s.mode = .idle) ∧ (i.isCommand = false → s.mode = .stream)

theorem exec_rsp_iff {i : Instr} {s t : State} (hacc : s.Accepts i) (h : exec i s = .next t) :
    t.rsp.isSome = true ↔ OwesResponse (.ok i) := by
  obtain ⟨-, ⟨hi, hm⟩ | ⟨hi, hm⟩⟩ | ⟨-, ⟨rfl, rfl⟩ | ⟨blk, rfl, rfl⟩ | ⟨blk, rfl, -, rfl⟩ | ⟨rfl, rfl⟩ | ⟨rfl, rfl⟩⟩ |
    ⟨-, ⟨d, rfl, rfl⟩ | ⟨x, rfl, rfl⟩ | ⟨e, rfl, rfl⟩ | ⟨x, rfl, rfl⟩⟩ := exec_cases h
  · exact absurd (hacc.1 hi) hm
  · exact absurd (hacc.2 hi) hm
  case inr.inl.inr.inr.inr.inr =>
    exact ⟨nofun, fun howes => absurd rfl howes.1⟩
  case inr.inr.inl =>
    exact ⟨nofun, fun howes => absurd rfl (howes.2 d)⟩
  all_goals exact ⟨fun _ => ⟨nofun, nofun⟩, fun _ => rfl⟩

/-- The word presented stands on the port that MODE lets accept. -/
theorem accepts_of_presented {s : State} {w : PortWord} {i : Instr} (hw : s.presented = some w)
    (hd : decode w = .ok i) : s.accept.Accepts i := by
  unfold State.Accepts
  rw [State.accept_mode]
  cases w with
  | cmd c =>
    have hm : s.mode = .idle := by
      unfold State.presented at hw
      cases hm : s.mode with
      | idle => rfl
      | stream => simp [hm] at hw
      | halt => simp [hm] at hw
    have hi := decodeCmd_isCommand hd
    exact ⟨fun _ => hm, fun hi' => absurd (hi.symm.trans hi') (by decide)⟩
  | beat b =>
    have hm : s.mode = .stream := by
      unfold State.presented at hw
      cases hm : s.mode with
      | idle => simp [hm] at hw
      | stream => rfl
      | halt => simp [hm] at hw
    have hi : i.isCommand = false := Except.ok.inj hd ▸ decodeBeat_isCommand b
    exact ⟨fun hi' => absurd (hi.symm.trans hi') (by decide), fun _ => hm⟩

theorem acceptWord_rsp_iff {w : PortWord} {s t : State} (hacc : ∀ i, decode w = .ok i → s.Accepts i)
    (h : acceptWord w s = .next t) : t.rsp.isSome = true ↔ OwesResponse (decode w) := by
  unfold acceptWord at h
  cases hd : decode w with
  | ok i =>
    rw [hd] at h
    exact exec_rsp_iff (hacc i hd) h
  | error r =>
    rw [hd] at h
    cases h
    exact ⟨fun _ => ⟨nofun, nofun⟩, fun _ => rfl⟩

theorem step_rsp_iff {s t : State} (h : step s = .next t) :
    t.rsp.isSome = true ↔ s.rstAsserted = false ∧ ∃ w, s.tick.presented = some w ∧ OwesResponse (decode w) := by
  cases hrst : s.rstAsserted with
  | true =>
    rw [step_reset hrst] at h
    cases h
    exact ⟨nofun, fun howes => nomatch howes.1⟩
  | false =>
    cases hw : s.tick.presented with
    | none =>
      rw [step_wait hrst hw] at h
      cases h
      exact ⟨nofun, fun ⟨_, _, hw, _⟩ => nomatch hw⟩
    | some w =>
      rw [step_accept hrst hw] at h
      rw [acceptWord_rsp_iff (fun i hd => accepts_of_presented hw hd) h]
      constructor
      · exact fun howes => ⟨rfl, w, rfl, howes⟩
      · rintro ⟨-, _, ⟨⟩, howes⟩
        exact howes

/-! ### No rule reads the response -/

/-- The state that shows another response. -/
def State.withRsp (r : Option Response) (s : State) : State :=
  { s with rsp := r }

@[simp] theorem State.withRsp_mode (r : Option Response) (s : State) : (s.withRsp r).mode = s.mode := rfl

theorem quiet_pushByte_withRsp (d : Byte) (r : Option Response) (s : State) :
    ((s.withRsp r).pushByte d).quiet = (s.pushByte d).quiet := by
  by_cases hfull : s.fill.val = 63
  · rw [pushByte_full hfull, pushByte_full (s := s.withRsp r) hfull]
    rfl
  · have hlt : s.fill.val < 63 := by omega
    have hnext : s.fill.val + 1 < 64 := by omega
    rw [pushByte_partial ⟨_, hnext⟩ hlt rfl, pushByte_partial (s := s.withRsp r) ⟨_, hnext⟩ hlt rfl]
    rfl

theorem emitDigest_padAndFold_withRsp (r : Option Response) (s : State) :
    (s.withRsp r).padAndFold.emitDigest = s.padAndFold.emitDigest := by
  by_cases hempty : s.fill = 0
  · rw [padAndFold_zero hempty, padAndFold_zero (s := s.withRsp r) hempty]
    rfl
  · rw [padAndFold_partial hempty, padAndFold_partial (s := s.withRsp r) hempty]
    rfl

theorem respond_foldBytes_withRsp (blk : List Byte) (r : Option Response) (s : State) :
    (s.withRsp r).foldBytes blk (State.respond .ok) = s.foldBytes blk (State.respond .ok) := by
  unfold State.foldBytes
  cases blockOfBytes blk with
  | some blk => rfl
  | none => rfl

/-- Whether an instruction runs or is held, it writes the response anew. -/
theorem exec_withRsp (i : Instr) (r : Option Response) (s : State) : exec i (s.withRsp r) = exec i s := by
  cases i with
  | init | finalize | hash | fail | rsvd => rfl
  | update blk => exact congrArg (whenIdle s) (respond_foldBytes_withRsp blk r s)
  | data d => exact congrArg (whenStream s) (quiet_pushByte_withRsp d r s)
  | endBeat x =>
    exact congrArg (fun u : State => whenStream s { u with fill := 0, mode := .idle })
      (emitDigest_padAndFold_withRsp r s)

theorem acceptWord_withRsp (w : PortWord) (r : Option Response) (s : State) :
    acceptWord w (s.withRsp r) = acceptWord w s := by
  unfold acceptWord
  cases decode w with
  | ok i => exact exec_withRsp i r s
  | error e => rfl

theorem accept_withRsp (r : Option Response) (s : State) : (s.withRsp r).accept = s.accept.withRsp r := by
  unfold State.accept
  rw [State.withRsp_mode]
  cases s.mode with
  | idle | stream | halt => rfl

theorem react_withRsp (rst : Bool) (r : Option Response) (s : State) : (s.withRsp r).react rst = s.react rst := by
  cases rst with
  | true => rfl
  | false =>
    cases hw : s.presented with
    | none =>
      rw [react_wait hw, react_wait (u := s.withRsp r) hw]
      rfl
    | some w => rw [react_accept hw, react_accept (u := s.withRsp r) hw, accept_withRsp, acceptWord_withRsp]

/-- Settles O35: a reset and a wait emit nothing, an accepted word what R74 says; and each transition writes the
response without reading it. -/
theorem responseExactlyWhenDue : Obligations.ResponseExactlyWhenDue :=
  ⟨fun _ _ => step_rsp_iff, fun s r => (step_eq_react _).trans (react_withRsp s.rstAsserted r s.tick)⟩

/-! ### BUF's stale bytes -/

/-- The state with another BUF. -/
def State.withBuf (b : Block) (s : State) : State :=
  { s with buf := b }

@[simp] theorem State.withBuf_mode (b : Block) (s : State) : (s.withBuf b).mode = s.mode := rfl
@[simp] theorem State.withBuf_fill (b : Block) (s : State) : (s.withBuf b).fill = s.fill := rfl
@[simp] theorem State.withBuf_buf (b : Block) (s : State) : (s.withBuf b).buf = b := rfl

/-- b has s's bytes below FILL. -/
def State.SharesBytes (s : State) (b : Block) : Prop :=
  ∀ (i : Nat) (h : i < s.fill.val), s.buf[i] = b[i]

theorem sameButStale_refl (s : State) : SameButStale s s :=
  ⟨rfl, fun _ _ _ => rfl⟩

/-- Outside STREAM every byte of BUF is stale. -/
theorem sameButStale_outside_stream {s : State} (b : Block) (hm : s.mode ≠ .stream) : SameButStale s (s.withBuf b) :=
  ⟨rfl, fun h => absurd h hm⟩

/-- With nothing stored every byte of BUF is stale. -/
theorem sameButStale_empty {s : State} (b : Block) (hfill : s.fill = 0) : SameButStale s (s.withBuf b) := by
  refine ⟨rfl, fun _ i hi => ?_⟩
  rw [hfill] at hi
  exact absurd hi (Nat.not_lt_zero i)

/-- One byte more is shared where both states store it at FILL. -/
theorem getElem_set_fill {s : State} {b : Block} (h : s.SharesBytes b) (d : Byte) (i : Nat) (hi : i ≤ s.fill.val)
    (hlt : i < 64) : (s.buf.set s.fill.val d s.fill.isLt)[i] = (b.set s.fill.val d s.fill.isLt)[i] := by
  rw [Vector.getElem_set, Vector.getElem_set]
  split
  · rfl
  · exact h i (by omega)

/-- A byte stored at FILL joins the bytes shared, and the 64th completes a block that is shared whole. -/
theorem sameButStale_pushByte {s : State} {b : Block} (d : Byte) (h : s.SharesBytes b) :
    SameButStale (s.pushByte d) ((s.withBuf b).pushByte d) := by
  by_cases hfull : s.fill.val = 63
  · have hblock : b.set 63 d = s.buf.set 63 d := by
      refine Vector.ext fun i hi => ?_
      have hbyte := getElem_set_fill h d i (by omega) hi
      simp only [hfull] at hbyte
      exact hbyte.symm
    rw [pushByte_full hfull, pushByte_full (s := s.withBuf b) hfull, State.withBuf_buf, hblock]
    exact sameButStale_refl _
  · have hlt : s.fill.val < 63 := by omega
    have hnext : s.fill.val + 1 < 64 := by omega
    rw [pushByte_partial ⟨_, hnext⟩ hlt rfl, pushByte_partial (s := s.withBuf b) ⟨_, hnext⟩ hlt rfl]
    exact ⟨rfl, fun _ i hi => getElem_set_fill h d i (Nat.le_of_lt_succ hi) (Nat.lt_trans hi hnext)⟩

theorem padFrom_congr {s : State} {b : Block} (h : s.SharesBytes b) :
    padFrom s.fill.val s.buf = padFrom s.fill.val b := by
  refine eq_padFrom fun i hi => ?_
  rw [padFrom_getElem]
  split
  case isTrue hlow => exact h i hlow
  case isFalse => rfl

/-- A padded block keeps the bytes shared and zeros the stale ones. -/
theorem sameButStale_padAndFold {s : State} {b : Block} (h : s.SharesBytes b) :
    SameButStale s.padAndFold (s.withBuf b).padAndFold := by
  by_cases hempty : s.fill = 0
  · rw [padAndFold_zero hempty, padAndFold_zero (s := s.withBuf b) hempty]
    exact sameButStale_empty b hempty
  · rw [padAndFold_partial hempty, padAndFold_partial (s := s.withBuf b) hempty, State.withBuf_buf, State.withBuf_fill,
      padFrom_congr h]
    exact sameButStale_refl _

/-- Where the first outcome is a next state, so is the second, and they differ in stale bytes alone. -/
def AgreesButStale (o o' : Host.Outcome State Fault Refusal) : Prop :=
  ∀ s, o = .next s → ∃ t, o' = .next t ∧ SameButStale s t

theorem SameButStale.agrees {s t : State} (h : SameButStale s t) : AgreesButStale (.next s) (.next t) := by
  rintro _ ⟨⟩
  exact ⟨t, rfl, h⟩

/-- The response and the ports are no part of what is shared. -/
theorem SameButStale.quiet {s t : State} (h : SameButStale s t) : SameButStale s.quiet t.quiet :=
  ⟨congrArg State.quiet h.1, h.2⟩

theorem SameButStale.whenIdle {s u v : State} {b : Block} (hs : SameButStale s (s.withBuf b))
    (h : s.mode = .idle → SameButStale u v) : AgreesButStale (whenIdle s u) (whenIdle (s.withBuf b) v) := by
  by_cases hm : s.mode = .idle
  · rw [whenIdle_idle u hm, whenIdle_idle (s := s.withBuf b) v hm]
    exact (h hm).agrees
  · rw [whenIdle_not u hm, whenIdle_not (s := s.withBuf b) v hm]
    exact hs.quiet.agrees

theorem SameButStale.whenStream {s u v : State} {b : Block} (hs : SameButStale s (s.withBuf b))
    (h : s.SharesBytes b → SameButStale u v) : AgreesButStale (whenStream s u) (whenStream (s.withBuf b) v) := by
  by_cases hm : s.mode = .stream
  · rw [whenStream_stream u hm, whenStream_stream (s := s.withBuf b) v hm]
    exact (h (hs.2 hm)).agrees
  · rw [whenStream_not u hm, whenStream_not (s := s.withBuf b) v hm]
    exact hs.quiet.agrees

theorem sameButStale_update {s : State} (b : Block) (blk : List Byte) (hm : s.mode = .idle) :
    SameButStale (s.foldBytes blk (State.respond .ok)) ((s.withBuf b).foldBytes blk (State.respond .ok)) := by
  unfold State.foldBytes
  cases blockOfBytes blk with
  | some blk => exact sameButStale_outside_stream b (by simp [hm])
  | none => exact sameButStale_outside_stream b Mode.noConfusion

theorem SameButStale.endHash {s t : State} (h : SameButStale s t) :
    SameButStale { s.emitDigest with fill := 0, mode := .idle } { t.emitDigest with fill := 0, mode := .idle } := by
  rw [← h.1]
  exact sameButStale_outside_stream t.buf Mode.noConfusion

/-- The commands read no byte of BUF; DATA and END read those below FILL. -/
theorem exec_agreesButStale (i : Instr) {s : State} {b : Block} (hs : SameButStale s (s.withBuf b)) :
    AgreesButStale (exec i s) (exec i (s.withBuf b)) := by
  have hidle : s.mode = .idle → s.mode ≠ .stream := fun hm => by rw [hm]; exact Mode.noConfusion
  cases i with
  | init | finalize =>
    refine hs.whenIdle fun hm => ?_
    exact sameButStale_outside_stream b (hidle hm)
  | update blk => exact hs.whenIdle (sameButStale_update b blk)
  | hash => exact hs.whenIdle fun _ => sameButStale_empty b rfl
  | data d => exact hs.whenStream fun h => (sameButStale_pushByte d h).quiet
  | endBeat x => exact hs.whenStream fun h => (sameButStale_padAndFold h).endHash
  | fail | rsvd =>
    refine hs.whenStream fun _ => ?_
    exact sameButStale_outside_stream b Mode.noConfusion

theorem acceptWord_agreesButStale (w : PortWord) {s : State} {b : Block} (hs : SameButStale s (s.withBuf b)) :
    AgreesButStale (acceptWord w s) (acceptWord w (s.withBuf b)) := by
  unfold acceptWord
  cases decode w with
  | ok i => exact exec_agreesButStale i hs
  | error r => exact SameButStale.agrees ⟨rfl, hs.2⟩

theorem accept_withBuf (b : Block) (s : State) : (s.withBuf b).accept = s.accept.withBuf b := by
  unfold State.accept
  rw [State.withBuf_mode]
  cases s.mode with
  | idle | stream | halt => rfl

/-- Accepting a word writes neither BUF nor FILL nor MODE. -/
theorem SameButStale.accept {s : State} {b : Block} (hs : SameButStale s (s.withBuf b)) :
    SameButStale s.accept (s.accept.withBuf b) := by
  refine ⟨rfl, fun hm i hi => ?_⟩
  rw [State.accept_mode] at hm
  rw [State.accept_fill] at hi
  simp only [State.accept_buf]
  exact hs.2 hm i hi

theorem react_agreesButStale (rst : Bool) {s : State} {b : Block} (hs : SameButStale s (s.withBuf b)) :
    AgreesButStale (s.react rst) ((s.withBuf b).react rst) := by
  cases rst with
  | true => exact (sameButStale_refl s.hardwareReset).agrees
  | false =>
    cases hw : s.presented with
    | none =>
      rw [react_wait hw, react_wait (u := s.withBuf b) hw]
      exact hs.quiet.agrees
    | some w =>
      rw [react_accept hw, react_accept (u := s.withBuf b) hw, accept_withBuf]
      exact acceptWord_agreesButStale w hs.accept

/-- Settles O39: the two steps take the same branch, and what it reads of BUF lies below FILL. -/
theorem staleBufIsInert : Obligations.StaleBufIsInert := by
  intro s t s' hst hstep
  rw [← hst.1]
  rw [step_eq_react] at hstep ⊢
  exact react_agreesButStale s.rstAsserted (s := s.tick) (b := t.buf) ⟨rfl, hst.2⟩ s' hstep

end Sys2Proof.Machine
end

section
/-! PROOFS about streams (40_blocksource.md, 43_hasher_control.md, 70_reset_and_hazards.md): the state inside a HASH
command after any number of its DATA beats, whole HASH commands, one UPDATE a block, and padding collisions. -/

namespace Sys2Proof.Machine

/-! ### Padding collisions -/

/-- Beyond its end a byte sequence reads as zeros already. -/
theorem getD_append_zeros (s : List Byte) (z k : Nat) :
    (s ++ List.replicate z 0x00#8).getD k 0#8 = s.getD k 0#8 := by
  by_cases hk : k < s.length
  · rw [List.getD_append _ _ _ _ hk]
  · have hk : s.length ≤ k := Nat.le_of_not_lt hk
    rw [List.getD_append_right _ _ _ _ hk, List.getD_eq_default _ _ hk, List.getD_eq_getElem?_getD,
      List.getElem?_getD_replicate_default_eq]

theorem streamBlock_append_zeros (s : List Byte) (z i : Nat) :
    streamBlock (s ++ List.replicate z 0x00#8) i = streamBlock s i := by
  refine Vector.ext fun t ht => ?_
  rw [streamBlock_getElem _ _ _ ht, streamBlock_getElem _ _ _ ht, getD_append_zeros]

theorem bs_append_zeros {s : List Byte} {z : Nat} (h : (s.length + 63) / 64 = (s.length + z + 63) / 64) :
    bs (s ++ List.replicate z 0x00#8) = bs s := by
  rw [bs, bs, List.length_append, List.length_replicate, ← h]
  exact List.map_congr_left fun i _ => streamBlock_append_zeros s z i

/-- Settles O44: as many blocks, each with the same bytes. -/
theorem paddingCollision : Obligations.PaddingCollision :=
  fun _ _ _ h => ⟨bs_append_zeros h, congrArg (foldBlocks Config.IV) (bs_append_zeros h)⟩

/-! ### One step after a run -/

theorem runSteps_snoc {n : Nat} {s t u : State} (hrun : runSteps n s = .next t) (hstep : step t = .next u) :
    runSteps (n + 1) s = .next u := by
  rw [runSteps_add n 1 hrun, runSteps_succ hstep, runSteps_zero]

theorem responses_snoc {n : Nat} {s t u : State} (hrun : runSteps n s = .next t) (hstep : step t = .next u) :
    responses (n + 1) s = responses n s ++ u.rsp.toList := by
  rw [responses_add n 1 hrun, responses_succ hstep, responses, List.append_nil]

/-! ### Undisturbed steps -/

/-- One step takes one entry off the schedules of RST and of the wire changes, whatever it accepts. -/
theorem step_inputs {s t : State} (h : step s = .next t) :
    t.rstPort = s.rstPort.tail ∧ t.wirePort = s.wirePort.tail := by
  obtain ⟨-, rfl⟩ | ⟨-, -, rfl⟩ | ⟨c, rest, i, -, -, -, -, hexec⟩ | ⟨c, rest, -, -, -, -, rfl⟩ |
    ⟨b, rest, -, -, -, hexec⟩ := step_cases h
  · exact ⟨rfl, rfl⟩
  · exact ⟨rfl, rfl⟩
  · obtain ⟨-, -, hrst, hwire, -⟩ := exec_ports hexec [] [] [] []
    exact ⟨hrst, hwire⟩
  · exact ⟨rfl, rfl⟩
  · obtain ⟨-, -, hrst, hwire, -⟩ := exec_ports hexec [] [] [] []
    exact ⟨hrst, hwire⟩

theorem undisturbed_step {s t : State} {n : Nat} (hund : s.undisturbed (n + 1)) (h : step s = .next t) :
    t.undisturbed n := by
  obtain ⟨-, -, -, htick⟩ := undisturbed_succ hund
  obtain ⟨hrst, hwire⟩ := step_inputs h
  exact undisturbed_congr htick hrst hwire

theorem step_cmd_undisturbed {s : State} {c : CmdWord} {rest : List CmdWord} {i : Instr} {n : Nat}
    (hund : s.undisturbed (n + 1)) (hm : s.mode = .idle) (hc : s.cmdPort = c :: rest) (hd : decodeCmd c = .ok i) :
    step s = exec i { s.tick with cmdPort := rest } := by
  obtain ⟨hrst, htick, -, -⟩ := undisturbed_succ hund
  exact (step_cmd hrst hm (htick.trans hc)).trans (acceptWord_of_decode (w := .cmd c) hd _)

theorem step_beat_undisturbed {s : State} {b : BeatWord} {rest : List BeatWord} {n : Nat}
    (hund : s.undisturbed (n + 1)) (hm : s.mode = .stream) (hb : s.strmPort = b :: rest) :
    step s = exec (decodeBeat b) { s.tick with strmPort := rest } := by
  obtain ⟨hrst, -, htick, -⟩ := undisturbed_succ hund
  exact step_beat hrst hm (htick.trans hb)

/-- A DATA beat is consumed and its byte pushed. -/
theorem step_data_undisturbed {s : State} {d : Byte} {rest : List BeatWord} {n : Nat} (hund : s.undisturbed (n + 1))
    (hm : s.mode = .stream) (hb : s.strmPort = beatWord 0#2 d :: rest) :
    step s = .next (State.pushByte d { s.tick with strmPort := rest }).quiet := by
  rw [step_beat_undisturbed hund hm hb, decodeBeat_data]
  exact exec_data d hm

/-! ### A HASH without a terminator -/

/-- In STREAM a DATA beat, or none, leaves MODE and the commands presented. -/
theorem step_stream_holds {s : State} {n : Nat} (hm : s.mode = .stream) (hund : s.undisturbed (n + 1))
    (hdata : ∀ b ∈ s.strmPort.take (n + 1), b.toNat < 0x100) :
    ∃ t, step s = .next t ∧ t.mode = .stream ∧ t.cmdPort = s.cmdPort ∧ t.strmPort = s.strmPort.tail ∧ t.rsp = none := by
  obtain ⟨hrst, hcmd, hstrm, -⟩ := undisturbed_succ hund
  cases hb : s.strmPort with
  | nil =>
    have hwait : s.tick.presented = none := presented_eq_none (.inr (.inl ⟨hm, hstrm.trans hb⟩))
    exact ⟨s.tick.quiet, step_wait hrst hwait, hm, hcmd, hstrm.trans hb, rfl⟩
  | cons b rest =>
    have hlow : b.toNat < 0x100 := hdata b (by simp [hb])
    rw [eq_beatWord_of_range 0#2 (Nat.zero_le _) hlow] at hb
    refine ⟨_, step_data_undisturbed hund hm hb, ?_, ?_, ?_, rfl⟩
    · rw [State.quiet_mode, State.pushByte_mode]; exact hm
    · rw [State.quiet_cmdPort, State.pushByte_cmdPort]; exact hcmd
    · rw [State.quiet_strmPort, State.pushByte_strmPort]; rfl

/-- Settles O49: every step is one of those, so by induction on the steps none leaves STREAM. -/
theorem hashWithoutTerminatorHangs : Obligations.HashWithoutTerminatorHangs := by
  intro s n hm hund hdata
  induction n generalizing s with
  | zero => exact ⟨s, rfl, hm, rfl, rfl⟩
  | succ n ih =>
    obtain ⟨u, hstep, hmode, hcmd, hstrm, hrsp⟩ := step_stream_holds hm hund hdata
    have hrest : ∀ b ∈ u.strmPort.take n, b.toNat < 0x100 := by
      intro b hb
      rw [hstrm, ← Nat.add_sub_cancel n 1, ← List.tail_take_eq_take_tail] at hb
      exact hdata b (List.mem_of_mem_tail hb)
    obtain ⟨t, hrun, hmode', hcmd', hquiet⟩ := ih u hmode (undisturbed_step hund hstep) hrest
    refine ⟨t, (runSteps_succ hstep).trans hrun, hmode', hcmd'.trans hcmd, ?_⟩
    rw [responses_succ hstep, hrsp, hquiet]
    rfl

/-! ### The state inside a HASH command -/

/-- 40_blocksource.md section 3: what the registers hold inside a HASH command that has been given these bytes. -/
structure State.HoldsPrefix (s : State) (bytes : List Byte) : Prop where
  mode : s.mode = .stream
  fill : s.fill.val = bytes.length % 64
  buf : ∀ k : Nat, k < bytes.length % 64 → s.buf.toList.getD k 0#8 = bytes.getD (64 * (bytes.length / 64) + k) 0#8
  cv : s.cv = foldBlocks Config.IV ((bs bytes).take (bytes.length / 64))
  phase : s.phase = if bytes.length / 64 = 0 then .reset else .accum

theorem holdsPrefix_nil {s : State} (hm : s.mode = .stream) (hcv : s.cv = Config.IV) (hphase : s.phase = .reset)
    (hfill : s.fill = 0) : s.HoldsPrefix [] where
  mode := hm
  fill := by rw [hfill]; rfl
  buf k hk := absurd hk (Nat.not_lt_zero k)
  cv := hcv
  phase := hphase

/-- The bytes of BUF up to FILL, after a byte is stored there, are the last bytes given so far. -/
theorem State.HoldsPrefix.stored_getElem {s : State} {bytes : List Byte} (h : s.HoldsPrefix bytes) (d : Byte) (k : Nat)
    (hk : k ≤ bytes.length % 64) (hlt : k < 64) :
    (s.buf.set s.fill.val d s.fill.isLt)[k] = (bytes ++ [d]).getD (64 * (bytes.length / 64) + k) 0#8 := by
  rw [Vector.getElem_set, h.fill]
  split
  case isTrue hlast =>
    have hend : 64 * (bytes.length / 64) + k = bytes.length := by omega
    rw [hend, List.getD_append_right _ _ _ _ (Nat.le_refl _), Nat.sub_self]
    rfl
  case isFalse hne =>
    have hbefore : k < bytes.length % 64 := by omega
    rw [List.getD_append _ _ _ _ (by omega), ← h.buf k hbefore, getD_toList _ _ hlt]

/-- The whole blocks given so far stay as they are when a byte follows. -/
theorem foldBlocks_take_append (bytes : List Byte) (d : Byte) :
    foldBlocks Config.IV ((bs (bytes ++ [d])).take (bytes.length / 64)) =
      foldBlocks Config.IV ((bs bytes).take (bytes.length / 64)) := by
  rw [take_bs_append bytes [d] _ (by omega)]

/-- One whole block more. -/
theorem foldBlocks_take_succ (bytes : List Byte) (n : Nat) (h : 64 * (n + 1) ≤ bytes.length) :
    foldBlocks Config.IV ((bs bytes).take (n + 1)) =
      compress (foldBlocks Config.IV ((bs bytes).take n)) (mix (streamBlock bytes n)) := by
  rw [take_bs _ _ h, take_bs _ _ (by omega), List.range_succ, List.map_append, foldBlocks_append]
  rfl

/-- Below 63 a byte moves FILL on; at 63 it completes block length / 64, which is folded. -/
theorem State.HoldsPrefix.pushByte {s : State} {bytes : List Byte} (h : s.HoldsPrefix bytes) (d : Byte) :
    (s.pushByte d).HoldsPrefix (bytes ++ [d]) := by
  have hlen : (bytes ++ [d]).length = bytes.length + 1 := by simp
  by_cases hfull : s.fill.val = 63
  · have hmod : bytes.length % 64 = 63 := h.fill.symm.trans hfull
    have hdiv : (bytes.length + 1) / 64 = bytes.length / 64 + 1 := by omega
    have hblock : s.buf.set 63 d = streamBlock (bytes ++ [d]) (bytes.length / 64) := by
      refine Vector.ext fun k hk => ?_
      have hbyte := h.stored_getElem d k (by omega) hk
      simp only [hfull] at hbyte
      rw [hbyte, streamBlock_getElem _ _ _ hk]
    rw [pushByte_full hfull]
    constructor
    · exact h.mode
    · rw [hlen]; change 0 = _; omega
    · rw [hlen]; omega
    · rw [hlen, hdiv, foldBlocks_take_succ _ _ (by omega), foldBlocks_take_append, ← h.cv, ← hblock]
    · rw [hlen, if_neg (by omega)]
  · have hlt : s.fill.val < 63 := by omega
    have hnext : s.fill.val + 1 < 64 := by omega
    have hfill := h.fill
    have hdiv : (bytes.length + 1) / 64 = bytes.length / 64 := by omega
    have hmod : (bytes.length + 1) % 64 = bytes.length % 64 + 1 := by omega
    rw [pushByte_partial ⟨_, hnext⟩ hlt rfl]
    constructor
    · exact h.mode
    · rw [hlen, hmod, ← hfill]
    · intro k hk
      rw [hlen, hmod] at hk
      rw [hlen, hdiv, getD_toList _ _ (by omega), h.stored_getElem d k (by omega) (by omega)]
    · rw [hlen, hdiv, foldBlocks_take_append, ← h.cv]
    · rw [hlen, hdiv, ← h.phase]

/-- The bytes given so far decide registers alone, so ports, schedules and the response may differ. -/
theorem State.HoldsPrefix.of_registers {s t : State} {bytes : List Byte} (h : s.HoldsPrefix bytes)
    (hmode : t.mode = s.mode) (hfill : t.fill = s.fill) (hbuf : t.buf = s.buf) (hcv : t.cv = s.cv)
    (hphase : t.phase = s.phase) : t.HoldsPrefix bytes where
  mode := hmode.trans h.mode
  fill := hfill ▸ h.fill
  buf := hbuf ▸ h.buf
  cv := hcv.trans h.cv
  phase := hphase.trans h.phase

theorem step_data_holdsPrefix {s : State} {bytes : List Byte} {d : Byte} {rest : List BeatWord} {n : Nat}
    (hs : s.HoldsPrefix bytes) (hport : s.strmPort = beatWord 0#2 d :: rest) (hund : s.undisturbed (n + 1)) :
    ∃ t, step s = .next t ∧ t.HoldsPrefix (bytes ++ [d]) ∧ t.strmPort = rest ∧ t.cmdPort = s.cmdPort ∧
      t.undisturbed n ∧ t.rsp = none := by
  obtain ⟨-, hcmd, -, -⟩ := undisturbed_succ hund
  have hstep := step_data_undisturbed hund hs.mode hport
  have hheld : ({ s.tick with strmPort := rest } : State).HoldsPrefix bytes := hs.of_registers rfl rfl rfl rfl rfl
  refine ⟨_, hstep, (hheld.pushByte d).of_registers rfl rfl rfl rfl rfl, ?_, ?_, undisturbed_step hund hstep, rfl⟩
  · rw [State.quiet_strmPort, State.pushByte_strmPort]
  · rw [State.quiet_cmdPort, State.pushByte_cmdPort]
    exact hcmd

/-- The DATA beats of a stream, one step each: they are consumed, their bytes are held, and they emit nothing. -/
theorem runSteps_data (bytes : List Byte) {s : State} {before : List Byte} {rest : List BeatWord} {n : Nat}
    (hs : s.HoldsPrefix before) (hport : s.strmPort = bytes.map (beatWord 0#2) ++ rest)
    (hund : s.undisturbed (bytes.length + n)) :
    ∃ t, runSteps bytes.length s = .next t ∧ t.HoldsPrefix (before ++ bytes) ∧ t.strmPort = rest ∧
      t.cmdPort = s.cmdPort ∧ t.undisturbed n ∧ responses bytes.length s = [] := by
  induction bytes generalizing s before with
  | nil =>
    rw [List.append_nil]
    exact ⟨s, rfl, hs, hport, rfl, by simpa using hund, rfl⟩
  | cons d bytes ih =>
    rw [List.length_cons, Nat.add_right_comm] at hund
    obtain ⟨u, hstep, hu, hstrm, hcmd, hund', hrsp⟩ := step_data_holdsPrefix hs hport hund
    obtain ⟨t, hrun, ht, hrest, hcmd', hund'', hquiet⟩ := ih hu hstrm hund'
    rw [List.append_assoc] at ht
    refine ⟨t, (runSteps_succ hstep).trans hrun, ht, hrest, hcmd'.trans hcmd, hund'', ?_⟩
    rw [List.length_cons, responses_succ hstep, hrsp, hquiet]
    rfl

/-- Settles O45: the run of the DATA beats from a state that holds no byte yet. -/
theorem stateAfterPrefix : Obligations.StateAfterPrefix := by
  intro s bytes rest hm hcv hphase hfill hport hund
  obtain ⟨t, hrun, ht, hrest, hcmd, -, -⟩ :=
    runSteps_data bytes (n := 0) (holdsPrefix_nil hm hcv hphase hfill) hport hund
  exact ⟨t, hrun, ht.fill, ht.buf, ht.cv, ht.phase, ht.mode, hrest, hcmd⟩

/-! ### Whole HASH commands -/

theorem step_hash {s : State} {p : BitVec 512} {cmds : List CmdWord} {n : Nat} (hm : s.mode = .idle)
    (hcmd : s.cmdPort = ⟨0x04#8, p⟩ :: cmds) (hund : s.undisturbed (n + 1)) :
    ∃ t, step s = .next t ∧ t.HoldsPrefix [] ∧ t.cmdPort = cmds ∧ t.strmPort = s.strmPort ∧ t.undisturbed n ∧
      t.rsp = none := by
  obtain ⟨-, -, hstrm, -⟩ := undisturbed_succ hund
  have hstep := step_cmd_undisturbed (i := .hash) hund hm hcmd rfl
  rw [exec_hash (s := { s.tick with cmdPort := cmds }) hm] at hstep
  exact ⟨_, hstep, holdsPrefix_nil rfl rfl rfl rfl, rfl, hstrm, undisturbed_step hund hstep, rfl⟩

/-- A HASH command up to its terminator. -/
theorem runSteps_hash {s : State} {p : BitVec 512} {bytes : List Byte} {cmds : List CmdWord} {rest : List BeatWord}
    {n : Nat} (hm : s.mode = .idle) (hcmd : s.cmdPort = ⟨0x04#8, p⟩ :: cmds)
    (hstrm : s.strmPort = bytes.map (beatWord 0#2) ++ rest) (hund : s.undisturbed (bytes.length + 1 + n)) :
    ∃ t, runSteps (bytes.length + 1) s = .next t ∧ t.HoldsPrefix bytes ∧ t.strmPort = rest ∧ t.cmdPort = cmds ∧
      t.undisturbed n ∧ responses (bytes.length + 1) s = [] := by
  rw [Nat.add_right_comm] at hund
  obtain ⟨u, hstep, hu, hcmds, hbeats, hund', hrsp⟩ := step_hash hm hcmd hund
  obtain ⟨t, hrun, ht, hrest, hcmd', hund'', hquiet⟩ := runSteps_data bytes hu (hbeats.trans hstrm) hund'
  refine ⟨t, (runSteps_succ hstep).trans hrun, ht, hrest, hcmd'.trans hcmds, hund'', ?_⟩
  rw [responses_succ hstep, hrsp, hquiet]
  rfl

/-- What is left of the bytes after the whole blocks, padded, is their last, partial block. -/
theorem State.HoldsPrefix.padFrom_buf {s : State} {bytes : List Byte} (h : s.HoldsPrefix bytes) :
    padFrom s.fill.val s.buf = streamBlock bytes (bytes.length / 64) := by
  refine (eq_padFrom fun k hk => ?_).symm
  rw [streamBlock_getElem _ _ _ hk, h.fill]
  split
  case isTrue hlow => rw [← h.buf k hlow, getD_toList _ _ hk]
  case isFalse hhigh => exact List.getD_eq_default _ _ (by omega)

/-- END folds what is left of the stream, if anything is, so CV becomes the chaining value of the whole. -/
theorem State.HoldsPrefix.padAndFold_cv {s : State} {bytes : List Byte} (h : s.HoldsPrefix bytes) :
    s.padAndFold.cv = cvOf bytes := by
  have hfill := h.fill
  by_cases hempty : s.fill = 0
  · have hwhole : (bs bytes).length = bytes.length / 64 := by
      rw [bs_length]
      rw [hempty, Fin.val_zero] at hfill
      omega
    rw [padAndFold_zero hempty, h.cv, cvOf, List.take_of_length_le hwhole.le]
  · have hpartial : bytes.length % 64 ≠ 0 := by
      rw [← hfill]
      exact fun hzero => hempty (Fin.ext hzero)
    rw [padAndFold_partial hempty, cvOf, bs_partial bytes hpartial, foldBlocks_append, ← h.cv, ← h.padFrom_buf]
    rfl

theorem step_end_holdsPrefix {s : State} {bytes : List Byte} {x : Byte} {rest : List BeatWord} {n : Nat}
    (hs : s.HoldsPrefix bytes) (hport : s.strmPort = beatWord 1#2 x :: rest) (hund : s.undisturbed (n + 1)) :
    ∃ t, step s = .next t ∧ t.cv = cvOf bytes ∧ t.phase = .final ∧ t.mode = .idle ∧ t.fill = 0 ∧
      t.rsp = some (.okDigest (fin (cvOf bytes)) (hex (fin (cvOf bytes)))) ∧ t.cmdPort = s.cmdPort ∧
      t.strmPort = rest := by
  obtain ⟨-, hcmd, -, -⟩ := undisturbed_succ hund
  have hstep := step_beat_undisturbed hund hs.mode hport
  have hheld : ({ s.tick with strmPort := rest } : State).HoldsPrefix bytes := hs.of_registers rfl rfl rfl rfl rfl
  have hcv := hheld.padAndFold_cv
  rw [decodeBeat_endBeat, exec_endBeat x hheld.mode] at hstep
  refine ⟨_, hstep, hcv, rfl, rfl, rfl, ?_, ?_, ?_⟩
  · rw [← hcv]
    rfl
  · exact (State.padAndFold_cmdPort _).trans hcmd
  · exact State.padAndFold_strmPort _

/-- Settles O46: HASH, the DATA beats, and END in the state that holds the whole stream. -/
theorem hashOfStream : Obligations.HashOfStream := by
  intro s p bytes x cmds rest hm hcmd hstrm hund
  obtain ⟨u, hrun, hu, hrest, hcmds, hund', hquiet⟩ := runSteps_hash (n := 1) hm hcmd hstrm hund
  obtain ⟨t, hstep, hcv, hphase, hmode, hfill, hrsp, hcmd', hstrm'⟩ := step_end_holdsPrefix hu hrest hund'
  refine ⟨t, ?_, hcv, hphase, hmode, hfill, hrsp, hcmd'.trans hcmds, hstrm', ?_⟩
  · exact runSteps_snoc hrun hstep
  · rw [responses_snoc hrun hstep, hquiet, hrsp]
    rfl

theorem step_fail_holdsPrefix {s : State} {bytes : List Byte} {e : Byte} {rest : List BeatWord} {n : Nat}
    (hs : s.HoldsPrefix bytes) (hport : s.strmPort = beatWord 2#2 e :: rest) (hund : s.undisturbed (n + 1)) :
    ∃ t, step s = .next t ∧ t.cv = s.cv ∧ t.phase = s.phase ∧ t.mode = .idle ∧ t.fill = 0 ∧
      t.rsp = some (.err .ioFail e) := by
  have hstep := step_beat_undisturbed hund hs.mode hport
  rw [decodeBeat_fail, exec_fail (s := { s.tick with strmPort := rest }) e hs.mode] at hstep
  exact ⟨_, hstep, rfl, rfl, rfl, rfl, rfl⟩

/-- Settles O47: FAIL keeps CV and PHASE as the DATA beats left them. -/
theorem hashOfFailingStream : Obligations.HashOfFailingStream := by
  intro s p bytes e cmds rest hm hcmd hstrm hund
  obtain ⟨u, hrun, hu, hrest, -, hund', hquiet⟩ := runSteps_hash (n := 1) hm hcmd hstrm hund
  obtain ⟨t, hstep, hcv, hphase, hmode, hfill, hrsp⟩ := step_fail_holdsPrefix hu hrest hund'
  refine ⟨t, ?_, hcv.trans hu.cv, hphase.trans hu.phase, hmode, hfill, ?_⟩
  · exact runSteps_snoc hrun hstep
  · rw [responses_snoc hrun hstep, hquiet, hrsp]
    rfl

/-! ### One UPDATE a block -/

theorem decodeCmd_portOfBytes (b : Block) : decodeCmd ⟨0x02#8, portOfBytes b.toList⟩ = .ok (.update b.toList) := by
  rw [decodeCmd_update, blockOfPort_portOfBytes_toList]

theorem step_update {s : State} {b : Block} {rest : List CmdWord} {n : Nat} (hm : s.mode = .idle)
    (hport : s.cmdPort = ⟨0x02#8, portOfBytes b.toList⟩ :: rest) (hund : s.undisturbed (n + 1)) :
    ∃ t, step s = .next t ∧ t.mode = .idle ∧ t.cv = compress s.cv (mix b) ∧ t.cmdPort = rest ∧ t.undisturbed n := by
  have hstep := step_cmd_undisturbed hund hm hport (decodeCmd_portOfBytes b)
  rw [exec_update (s := { s.tick with cmdPort := rest }) _ hm, foldBytes_toList] at hstep
  exact ⟨_, hstep, hm, rfl, rfl, undisturbed_step hund hstep⟩

/-- The UPDATE commands of a list of blocks, one step each, fold it onto CV. -/
theorem runSteps_updates (blocks : List Block) {s : State} {rest : List CmdWord} {n : Nat} (hm : s.mode = .idle)
    (hport : s.cmdPort = blocks.map (fun b => ⟨0x02#8, portOfBytes b.toList⟩) ++ rest)
    (hund : s.undisturbed (blocks.length + n)) :
    ∃ t, runSteps blocks.length s = .next t ∧ t.mode = .idle ∧ t.cv = foldBlocks s.cv blocks ∧ t.cmdPort = rest ∧
      t.undisturbed n := by
  induction blocks generalizing s with
  | nil => exact ⟨s, rfl, hm, rfl, hport, by simpa using hund⟩
  | cons b blocks ih =>
    rw [List.length_cons, Nat.add_right_comm] at hund
    obtain ⟨u, hstep, hmode, hcv, hcmd, hund'⟩ := step_update hm hport hund
    obtain ⟨t, hrun, hmode', hcv', hcmd', hund''⟩ := ih hmode hcmd hund'
    rw [hcv] at hcv'
    exact ⟨t, (runSteps_succ hstep).trans hrun, hmode', hcv', hcmd', hund''⟩

theorem step_finalize {s : State} {p : BitVec 512} {rest : List CmdWord} {n : Nat} (hm : s.mode = .idle)
    (hport : s.cmdPort = ⟨0x03#8, p⟩ :: rest) (hund : s.undisturbed (n + 1)) :
    ∃ t, step s = .next t ∧ t.cv = s.cv ∧ t.phase = .final ∧ t.mode = .idle ∧
      t.rsp = some (.okDigest (fin s.cv) (hex (fin s.cv))) ∧ t.cmdPort = rest := by
  have hstep := step_cmd_undisturbed (i := .finalize) hund hm hport rfl
  rw [exec_finalize (s := { s.tick with cmdPort := rest }) hm] at hstep
  exact ⟨_, hstep, rfl, rfl, hm, rfl, rfl⟩

/-- Settles O48: the UPDATE commands fold all of BS onto IV, and FINALIZE reads the CV that they leave. -/
theorem incrementalEquivalence : Obligations.IncrementalEquivalence := by
  intro s bytes p cmds hm hcv hcmd hund
  obtain ⟨u, hrun, hmode, hcvu, hcmds, hund'⟩ := runSteps_updates (bs bytes) hm hcmd hund
  obtain ⟨t, hstep, hcvt, hphase, hmode', hrsp, hcmd'⟩ := step_finalize hmode hcmds hund'
  have hwhole : u.cv = cvOf bytes := by rw [hcvu, hcv, cvOf]
  rw [hwhole] at hcvt hrsp
  exact ⟨t, runSteps_snoc hrun hstep, hcvt, hphase, hmode', hrsp, hcmd'⟩

end Sys2Proof.Machine
end

section
/-! PROOFS about traces (30_encoding.md sections 5 and 6, 70_reset_and_hazards.md section 1): which traces are well
formed, how the core runs one, and how many responses it emits. -/

namespace Sys2Proof.Machine

/-! ### Where a line may stand -/

/-- A line that is a piece of a trace by itself. -/
def Line.IsSingle (l : Line) : Prop :=
  l = .reset ∨ l = .init ∨ (∃ blk, l = .update blk) ∨ l = .finalize ∨
    ∃ op : Byte, l = .cmd op ∧ (op = 0x00#8 ∨ 5 ≤ op.toNat)

/-- A line that closes a HASH. -/
def Line.IsTerminator (l : Line) : Prop :=
  l = .endLine ∨ (∃ e, l = .fail e) ∨ ∃ x, l = .rsvd x

theorem reservedOp_iff (op : Byte) : reservedOp op = true ↔ (op = 0x00#8 ∨ 5 ≤ op.toNat) := by
  rw [reservedOp, Bool.or_eq_true, beq_iff_eq, decide_eq_true_iff]

theorem Line.IsSingle.follow {l : Line} (h : l.IsSingle) : l.follow false = some false := by
  obtain rfl | rfl | ⟨blk, rfl⟩ | rfl | ⟨op, rfl, hop⟩ := h
  case inr.inr.inr.inr => rw [Line.follow, (reservedOp_iff op).2 hop]; rfl
  all_goals rfl

theorem Line.IsTerminator.follow {l : Line} (h : l.IsTerminator) : l.follow true = some false := by
  obtain rfl | ⟨e, rfl⟩ | ⟨x, rfl⟩ := h
  all_goals rfl

/-- Outside a HASH a single line may stand, and HASH, which opens one. -/
theorem Line.follow_outside {l : Line} {b : Bool} (h : l.follow false = some b) :
    (b = false ∧ l.IsSingle) ∨ (b = true ∧ l = .hash) := by
  cases l with
  | reset => cases h; exact .inl ⟨rfl, .inl rfl⟩
  | init => cases h; exact .inl ⟨rfl, .inr (.inl rfl)⟩
  | update blk => cases h; exact .inl ⟨rfl, .inr (.inr (.inl ⟨blk, rfl⟩))⟩
  | finalize => cases h; exact .inl ⟨rfl, .inr (.inr (.inr (.inl rfl)))⟩
  | hash => cases h; exact .inr ⟨rfl, rfl⟩
  | cmd op =>
    cases hop : reservedOp op with
    | true =>
      rw [Line.follow, hop] at h
      cases h
      exact .inl ⟨rfl, .inr (.inr (.inr (.inr ⟨op, rfl, (reservedOp_iff op).1 hop⟩)))⟩
    | false =>
      rw [Line.follow, hop] at h
      cases h
  | data | endLine | fail | rsvd => cases h

/-- Inside a HASH a DATA line may stand, and a terminator, which closes it. -/
theorem Line.follow_inside {l : Line} {b : Bool} (h : l.follow true = some b) :
    (b = true ∧ ∃ d, l = .data d) ∨ (b = false ∧ l.IsTerminator) := by
  cases l with
  | data d => cases h; exact .inl ⟨rfl, d, rfl⟩
  | endLine => cases h; exact .inr ⟨rfl, .inl rfl⟩
  | fail e => cases h; exact .inr ⟨rfl, .inr (.inl ⟨e, rfl⟩)⟩
  | rsvd x => cases h; exact .inr ⟨rfl, .inr (.inr ⟨x, rfl⟩)⟩
  | reset | init | update | finalize | hash | cmd => cases h

/-! ### Well-formed traces, a line or a piece at a time -/

theorem wellFormedFrom_cons {b b' : Bool} {l : Line} (ls : List Line) (h : l.follow b = some b') :
    wellFormedFrom b (l :: ls) = wellFormedFrom b' ls := by
  rw [wellFormedFrom, h]

theorem follow_of_wellFormedFrom {b : Bool} {l : Line} {ls : List Line} (h : wellFormedFrom b (l :: ls) = true) :
    ∃ b', l.follow b = some b' ∧ wellFormedFrom b' ls = true := by
  cases hf : l.follow b with
  | none => rw [wellFormedFrom, hf] at h; cases h
  | some b' => exact ⟨b', rfl, wellFormedFrom_cons ls hf ▸ h⟩

/-- After a well-formed trace a trace goes on outside a HASH. -/
theorem wellFormedFrom_append {b : Bool} {pre : List Line} (rest : List Line) (h : wellFormedFrom b pre = true) :
    wellFormedFrom b (pre ++ rest) = wellFormedFrom false rest := by
  induction pre generalizing b with
  | nil =>
    cases b with
    | false => rfl
    | true => cases h
  | cons l pre ih =>
    obtain ⟨b', hf, hpre⟩ := follow_of_wellFormedFrom h
    rw [List.cons_append, wellFormedFrom_cons _ hf, ih hpre]

/-- DATA lines leave a HASH open. -/
theorem wellFormedFrom_data (bytes : List Byte) (rest : List Line) :
    wellFormedFrom true (bytes.map .data ++ rest) = wellFormedFrom true rest := by
  induction bytes with
  | nil => rfl
  | cons d bytes ih => exact (wellFormedFrom_cons (l := .data d) _ rfl).trans ih

theorem wellFormedFrom_singles {ls : List Line} (h : ∀ l ∈ ls, l.IsSingle) : wellFormedFrom false ls = true := by
  induction ls with
  | nil => rfl
  | cons l ls ih =>
    rw [wellFormedFrom_cons ls (h l List.mem_cons_self).follow]
    exact ih fun m hm => h m (List.mem_cons_of_mem l hm)

/-- A HASH line with its DATA lines and its terminator. -/
theorem wellFormedTrace_hash (bytes : List Byte) {last : Line} (h : last.IsTerminator) :
    wellFormedTrace (.hash :: bytes.map .data ++ [last]) = true := by
  rw [wellFormedTrace, List.cons_append, wellFormedFrom_cons (b' := true) _ rfl, wellFormedFrom_data,
    wellFormedFrom_cons [] h.follow]
  rfl

/-! ### The pieces of a trace -/

/-- A piece: a single line, or a HASH line with its DATA lines and its terminator. -/
def IsPiece (p : List Line) : Prop :=
  (∃ l, p = [l] ∧ l.IsSingle) ∨
    ∃ (bytes : List Byte) (last : Line), p = .hash :: bytes.map .data ++ [last] ∧ last.IsTerminator

/-- The pieces as the obligation lists them. -/
theorem isPiece_iff (p : List Line) :
    IsPiece p ↔
      (p = [.reset] ∨ p = [.init] ∨ (∃ blk, p = [.update blk]) ∨ p = [.finalize] ∨
        ∃ op : Byte, p = [.cmd op] ∧ (op = 0x00#8 ∨ 5 ≤ op.toNat)) ∨
      ∃ (bytes : List Byte) (last : Line), p = .hash :: bytes.map .data ++ [last] ∧
        (last = .endLine ∨ (∃ e, last = .fail e) ∨ ∃ x, last = .rsvd x) := by
  refine or_congr_left ⟨?_, ?_⟩
  · rintro ⟨l, rfl, hl⟩
    simpa [Line.IsSingle] using hl
  · rintro (rfl | rfl | ⟨blk, rfl⟩ | rfl | ⟨op, rfl, hop⟩)
    · exact ⟨_, rfl, .inl rfl⟩
    · exact ⟨_, rfl, .inr (.inl rfl)⟩
    · exact ⟨_, rfl, .inr (.inr (.inl ⟨blk, rfl⟩))⟩
    · exact ⟨_, rfl, .inr (.inr (.inr (.inl rfl)))⟩
    · exact ⟨_, rfl, .inr (.inr (.inr (.inr ⟨op, rfl, hop⟩)))⟩

theorem IsPiece.wellFormedTrace {p : List Line} (h : IsPiece p) : wellFormedTrace p = true := by
  obtain ⟨l, rfl, hl⟩ | ⟨bytes, last, rfl, hlast⟩ := h
  · exact wellFormedFrom_singles (by simpa using hl)
  · exact wellFormedTrace_hash bytes hlast

theorem wellFormedTrace_flatten {pieces : List (List Line)} (h : ∀ p ∈ pieces, IsPiece p) :
    wellFormedTrace pieces.flatten = true := by
  induction pieces with
  | nil => rfl
  | cons p pieces ih =>
    rw [List.flatten_cons]
    exact (wellFormedFrom_append _ (h p List.mem_cons_self).wellFormedTrace).trans
      (ih fun q hq => h q (List.mem_cons_of_mem p hq))

/-- What a trace looks like from a place outside a HASH (a sequence of pieces) and from one inside (the rest of the
open piece, then a sequence of pieces). -/
def InPieces : Bool → List Line → Prop
  | false, ls => ∃ pieces : List (List Line), ls = pieces.flatten ∧ ∀ p ∈ pieces, IsPiece p
  | true, ls => ∃ (bytes : List Byte) (last : Line) (rest : List Line), ls = bytes.map .data ++ last :: rest ∧
      last.IsTerminator ∧ ∃ pieces : List (List Line), rest = pieces.flatten ∧ ∀ p ∈ pieces, IsPiece p

theorem inPieces_piece {p ls : List Line} (hp : IsPiece p) (h : InPieces false ls) : InPieces false (p ++ ls) := by
  obtain ⟨pieces, rfl, hpieces⟩ := h
  exact ⟨p :: pieces, rfl, List.forall_mem_cons.2 ⟨hp, hpieces⟩⟩

theorem inPieces_hash {ls : List Line} (h : InPieces true ls) : InPieces false (.hash :: ls) := by
  obtain ⟨bytes, last, rest, rfl, hlast, hrest⟩ := h
  have hsplit : Line.hash :: (bytes.map .data ++ last :: rest) = (.hash :: bytes.map .data ++ [last]) ++ rest := by simp
  rw [hsplit]
  exact inPieces_piece (.inr ⟨bytes, last, rfl, hlast⟩) hrest

theorem inPieces_data {ls : List Line} (d : Byte) (h : InPieces true ls) : InPieces true (.data d :: ls) := by
  obtain ⟨bytes, last, rest, rfl, hlast, hrest⟩ := h
  exact ⟨d :: bytes, last, rest, rfl, hlast, hrest⟩

theorem inPieces_of_wellFormedFrom {b : Bool} {ls : List Line} (h : wellFormedFrom b ls = true) : InPieces b ls := by
  induction ls generalizing b with
  | nil =>
    cases b with
    | false => exact ⟨[], rfl, nofun⟩
    | true => cases h
  | cons l ls ih =>
    obtain ⟨b', hf, hls⟩ := follow_of_wellFormedFrom h
    have hrest := ih hls
    cases b with
    | false =>
      obtain ⟨rfl, hl⟩ | ⟨rfl, rfl⟩ := Line.follow_outside hf
      · exact inPieces_piece (.inl ⟨l, rfl, hl⟩) hrest
      · exact inPieces_hash hrest
    | true =>
      obtain ⟨rfl, d, rfl⟩ | ⟨rfl, hl⟩ := Line.follow_inside hf
      · exact inPieces_data d hrest
      · exact ⟨[], l, ls, rfl, hl, hrest⟩

/-- Settles O55: piece by piece in one direction, line by line in the other. -/
theorem wellFormedTraceShape : Obligations.WellFormedTraceShape := by
  refine ⟨fun ls => ?_, fun text ls => ?_⟩
  · simp only [← isPiece_iff]
    constructor
    · exact inPieces_of_wellFormedFrom
    · rintro ⟨pieces, rfl, hpieces⟩
      exact wellFormedTrace_flatten hpieces
  · rw [parseProgram, Option.filter_eq_some_iff]

end Sys2Proof.Machine
end

section
/-! PROOFS about traces that the core runs (30_encoding.md sections 5 and 6, 70_reset_and_hazards.md section 1): one
step a line, one response a command, a HASH that a reset abandons, and the pseudo-commands. -/

namespace Sys2Proof.Machine

/-! ### The event of a line, by the line -/

theorem acceptWord_encode {i : Instr} (hwf : i.WellFormed) (s : State) : acceptWord (encode i) s = exec i s :=
  acceptWord_of_decode (decodeEncodeAgree i hwf) s

/-- The event of a line that presents a word is the acceptance of that word. -/
theorem acceptWord_of_word {l : Line} {w : PortWord} (h : l.word = some w) (s : State) :
    acceptWord w s = .next (l.effect s) := by
  obtain ⟨t, ht⟩ := acceptWord_answers w s
  simp only [Line.effect, h, ht]

theorem effect_of_exec {l : Line} {i : Instr} {s t : State} (hw : l.word = some (encode i)) (hwf : i.WellFormed)
    (h : exec i s = .next t) : l.effect s = t :=
  Host.Outcome.next.inj ((acceptWord_of_word hw s).symm.trans ((acceptWord_encode hwf s).trans h))

section inIdle

variable {s : State} (hm : s.mode = .idle)
include hm

theorem effect_init : Line.effect s .init = s.initialise.respond .ok :=
  effect_of_exec (l := .init) rfl rfl (exec_init hm)

theorem effect_update (blk : Block) : Line.effect s (.update blk) = (s.fold blk).respond .ok := by
  have hwf : (Instr.update blk.toList).WellFormed := beq_of_eq Vector.length_toList
  exact effect_of_exec (l := .update blk) rfl hwf ((exec_update _ hm).trans (by rw [foldBytes_toList]))

theorem effect_finalize : Line.effect s .finalize = s.emitDigest :=
  effect_of_exec (l := .finalize) rfl rfl (exec_finalize hm)

theorem effect_hash : Line.effect s .hash = { s.initialise.quiet with fill := 0, mode := .stream } :=
  effect_of_exec (l := .hash) rfl rfl (exec_hash hm)

end inIdle

theorem effect_cmd {op : Byte} (s : State) (hop : op = 0x00#8 ∨ 5 ≤ op.toNat) :
    Line.effect s (.cmd op) = s.takeException (.illegalCmd op) := by
  have hd : decode (.cmd ⟨op, 0#512⟩) = .error (.reservedCommand op) := decodeCmd_reserved hop
  have haccept := acceptWord_of_word (l := .cmd op) rfl s
  rw [acceptWord, hd] at haccept
  exact (Host.Outcome.next.inj haccept).symm

section inStream

variable {s : State} (hm : s.mode = .stream)
include hm

theorem effect_data (d : Byte) : Line.effect s (.data d) = (s.pushByte d).quiet :=
  effect_of_exec (l := .data d) rfl rfl (exec_data d hm)

theorem effect_endLine : Line.effect s .endLine = { s.padAndFold.emitDigest with fill := 0, mode := .idle } :=
  effect_of_exec (l := .endLine) rfl rfl (exec_endBeat 0x00#8 hm)

theorem effect_fail (e : Byte) : Line.effect s (.fail e) = s.takeException (.ioFail e) :=
  effect_of_exec (l := .fail e) rfl rfl (exec_fail e hm)

theorem effect_rsvd (x : Byte) : Line.effect s (.rsvd x) = s.takeException (.badBeat x) :=
  effect_of_exec (l := .rsvd x) rfl rfl (exec_rsvd x hm)

end inStream

/-! ### The lines the core takes -/

/-- The MODE in which a line stands: STREAM inside a HASH, IDLE outside one. -/
def modeInHash (inHash : Bool) : Mode :=
  if inHash then .stream else .idle

/-- A line that the core takes at its place: one that may stand there (R72), or a RESET line anywhere, which abandons an
open HASH (R181). -/
def Line.Leads (b : Bool) (l : Line) (b' : Bool) : Prop :=
  l.follow b = some b' ∨ (l = .reset ∧ b' = false)

/-- How many responses the event of a line emits where the core takes it. -/
def Line.responseCount : Line → Nat
  | .reset | .hash | .data _ => 0
  | .init | .update _ | .finalize | .cmd _ | .endLine | .fail _ | .rsvd _ => 1

/-- The event of a line leads to the MODE of the next line, and emits what is counted. -/
theorem effect_of_leads {b b' : Bool} {l : Line} {s : State} (hl : l.Leads b b') (hm : s.mode = modeInHash b) :
    (l.effect s).mode = modeInHash b' ∧ (l.effect s).rsp.toList.length = l.responseCount := by
  obtain hf | ⟨rfl, rfl⟩ := hl
  case inr => exact ⟨rfl, rfl⟩
  cases b with
  | false =>
    obtain ⟨rfl, rfl | rfl | ⟨blk, rfl⟩ | rfl | ⟨op, rfl, hop⟩⟩ | ⟨rfl, rfl⟩ := Line.follow_outside hf
    · exact ⟨rfl, rfl⟩
    · rw [effect_init hm]; exact ⟨hm, rfl⟩
    · rw [effect_update hm]; exact ⟨hm, rfl⟩
    · rw [effect_finalize hm]; exact ⟨hm, rfl⟩
    · rw [effect_cmd s hop]; exact ⟨hm, rfl⟩
    · rw [effect_hash hm]; exact ⟨rfl, rfl⟩
  | true =>
    obtain ⟨rfl, d, rfl⟩ | ⟨rfl, rfl | ⟨e, rfl⟩ | ⟨x, rfl⟩⟩ := Line.follow_inside hf
    · rw [effect_data hm]; exact ⟨(State.pushByte_mode d s).trans hm, rfl⟩
    · rw [effect_endLine hm]; exact ⟨rfl, rfl⟩
    · rw [effect_fail hm]; exact ⟨rfl, rfl⟩
    · rw [effect_rsvd hm]; exact ⟨rfl, rfl⟩

/-! ### One step a line -/

/-- The event of a line reads no port. -/
theorem effect_presentTrace (l : Line) (ls : List Line) (s : State) :
    l.effect (s.presentTrace ls) = (l.effect s).presentTrace ls := by
  cases hw : l.word with
  | none => rw [Line.effect, Line.effect, hw]; rfl
  | some w =>
    have hmapped := acceptWord_mapPorts (fun _ => ls.filterMap Line.command?) (fun _ => ls.filterMap Line.beat?)
      (fun _ => ls.map (· == .reset)) (fun _ => []) (acceptWord_of_word hw s)
    exact Host.Outcome.next.inj ((acceptWord_of_word hw _).symm.trans hmapped)

theorem Line.beq_reset_of_word {l : Line} {w : PortWord} (h : l.word = some w) : (l == .reset) = false := by
  cases l with
  | reset => cases h
  | _ => rfl

/-- A command line stands outside a HASH, a beat line inside one; a RESET line presents no word. -/
theorem Line.word_of_leads {b b' : Bool} {l : Line} (h : l.Leads b b') :
    l = .reset ∨ (b = false ∧ ∃ c, l.word = some (.cmd c)) ∨ (b = true ∧ ∃ w, l.word = some (.beat w)) := by
  obtain hf | ⟨rfl, -⟩ := h
  case inr => exact .inl rfl
  cases b with
  | false =>
    obtain ⟨-, rfl | rfl | ⟨blk, rfl⟩ | rfl | ⟨op, rfl, -⟩⟩ | ⟨-, rfl⟩ := Line.follow_outside hf
    case inl.inl => exact .inl rfl
    all_goals exact .inr (.inl ⟨rfl, _, rfl⟩)
  | true =>
    obtain ⟨-, d, rfl⟩ | ⟨-, rfl | ⟨e, rfl⟩ | ⟨x, rfl⟩⟩ := Line.follow_inside hf
    all_goals exact .inr (.inr ⟨rfl, _, rfl⟩)

/-- The core consumes the line that stands first and runs its event. -/
theorem step_presentTrace {b b' : Bool} {l : Line} {s : State} (ls : List Line) (hl : l.Leads b b')
    (hm : s.mode = modeInHash b) : step (s.presentTrace (l :: ls)) = .next ((l.effect s).presentTrace ls) := by
  obtain rfl | ⟨rfl, c, hw⟩ | ⟨rfl, w, hw⟩ := Line.word_of_leads hl
  · exact step_reset rfl
  · have hrst : (s.presentTrace (l :: ls)).rstAsserted = false := Line.beq_reset_of_word hw
    have hcmd : l.command? = some c := by rw [Line.command?, hw]
    have hbeat : l.beat? = none := by rw [Line.beat?, hw]
    have hport : (s.presentTrace (l :: ls)).cmdPort = c :: ls.filterMap Line.command? := List.filterMap_cons_some hcmd
    have hrest : { (s.presentTrace (l :: ls)).tick with cmdPort := ls.filterMap Line.command? } = s.presentTrace ls := by
      change { s.presentTrace ls with strmPort := (l :: ls).filterMap Line.beat? } = s.presentTrace ls
      rw [List.filterMap_cons_none hbeat]
      rfl
    rw [step_cmd hrst hm hport, hrest, acceptWord_of_word hw, effect_presentTrace]
  · have hrst : (s.presentTrace (l :: ls)).rstAsserted = false := Line.beq_reset_of_word hw
    have hcmd : l.command? = none := by rw [Line.command?, hw]
    have hbeat : l.beat? = some w := by rw [Line.beat?, hw]
    have hport : (s.presentTrace (l :: ls)).strmPort = w :: ls.filterMap Line.beat? := List.filterMap_cons_some hbeat
    have hrest : { (s.presentTrace (l :: ls)).tick with strmPort := ls.filterMap Line.beat? } = s.presentTrace ls := by
      change { s.presentTrace ls with cmdPort := (l :: ls).filterMap Line.command? } = s.presentTrace ls
      rw [List.filterMap_cons_none hcmd]
      rfl
    rw [step_beat hrst hm hport, hrest, acceptWord_of_word hw, effect_presentTrace]

/-! ### Runs of lines -/

/-- Lines that the core takes one after the other, from a place inside a HASH or not to another. -/
inductive Runs : Bool → List Line → Bool → Prop where
  | nil (b : Bool) : Runs b [] b
  | cons {b b' c : Bool} {l : Line} {ls : List Line} (head : l.Leads b b') (tail : Runs b' ls c) : Runs b (l :: ls) c

theorem Runs.append {a b c : Bool} {ls ms : List Line} (hls : Runs a ls b) (hms : Runs b ms c) :
    Runs a (ls ++ ms) c := by
  induction hls with
  | nil => exact hms
  | cons head _ ih => exact .cons head (ih hms)

theorem runs_of_wellFormedFrom {b : Bool} {ls : List Line} (h : wellFormedFrom b ls = true) : Runs b ls false := by
  induction ls generalizing b with
  | nil =>
    cases b with
    | false => exact .nil false
    | true => cases h
  | cons l ls ih =>
    obtain ⟨b', hf, hls⟩ := follow_of_wellFormedFrom h
    exact .cons (.inl hf) (ih hls)

theorem runs_data (bytes : List Byte) : Runs true (bytes.map .data) true := by
  induction bytes with
  | nil => exact .nil true
  | cons d bytes ih => exact .cons (.inl rfl) ih

/-- Lines that the core takes: one step each, their events in order, and the responses counted. -/
theorem Runs.runSteps {b c : Bool} {ls : List Line} (h : Runs b ls c) {s : State} (hm : s.mode = modeInHash b) :
    runSteps ls.length (s.presentTrace ls) = .next (ls.foldl Line.effect (s.presentTrace [])) ∧
      (responses ls.length (s.presentTrace ls)).length = (ls.map Line.responseCount).sum := by
  induction h generalizing s with
  | nil => exact ⟨rfl, rfl⟩
  | @cons b b' c l ls head tail ih =>
    have hstep := step_presentTrace ls head hm
    obtain ⟨hmode, hcount⟩ := effect_of_leads head hm
    obtain ⟨hrun, hresponses⟩ := ih hmode
    constructor
    · rw [List.length_cons, runSteps_succ hstep, hrun, List.foldl_cons, effect_presentTrace]
    · rw [List.length_cons, responses_succ hstep, List.length_append, hresponses, List.map_cons, List.sum_cons,
        ← hcount]
      rfl

/-- Settles O50: the lines of a well-formed trace are lines that the core takes. -/
theorem wellFormedTraceRuns : Obligations.WellFormedTraceRuns :=
  fun _ _ hm hwf => ((runs_of_wellFormedFrom hwf).runSteps hm).1

/-! ### As many responses as commands -/

theorem length_filterMap_cons {α β : Type} (f : α → Option β) (a : α) (l : List α) :
    ((a :: l).filterMap f).length = (f a).toList.length + (l.filterMap f).length := by
  cases h : f a with
  | none => rw [List.filterMap_cons_none h]; simp
  | some b => rw [List.filterMap_cons_some h, List.length_cons, Nat.add_comm]; rfl

/-- HASH owes the response that its terminator emits; every other command emits its own. -/
theorem responseCount_add {b b' : Bool} {l : Line} (h : l.follow b = some b') :
    l.responseCount + b'.toNat = l.command?.toList.length + b.toNat := by
  cases b with
  | false =>
    obtain ⟨rfl, rfl | rfl | ⟨blk, rfl⟩ | rfl | ⟨op, rfl, -⟩⟩ | ⟨rfl, rfl⟩ := Line.follow_outside h
    all_goals rfl
  | true =>
    obtain ⟨rfl, d, rfl⟩ | ⟨rfl, rfl | ⟨e, rfl⟩ | ⟨x, rfl⟩⟩ := Line.follow_inside h
    all_goals rfl

/-- The terminator of a HASH that is open already answers a command before these lines. -/
theorem sum_responseCount {b : Bool} {ls : List Line} (h : wellFormedFrom b ls = true) :
    (ls.map Line.responseCount).sum = (ls.filterMap Line.command?).length + b.toNat := by
  induction ls generalizing b with
  | nil =>
    cases b with
    | false => rfl
    | true => cases h
  | cons l ls ih =>
    obtain ⟨b', hf, hls⟩ := follow_of_wellFormedFrom h
    have hline := responseCount_add hf
    have hrest := ih hls
    rw [List.map_cons, List.sum_cons, length_filterMap_cons]
    omega

/-- Settles O51: the responses counted by the line are the command lines counted. -/
theorem oneResponsePerCommand : Obligations.OneResponsePerCommand :=
  fun _ _ hm hwf => ((runs_of_wellFormedFrom hwf).runSteps hm).2.trans (sum_responseCount hwf)

/-! ### A HASH that a reset abandons -/

theorem sum_responseCount_data (bytes : List Byte) : ((bytes.map Line.data).map Line.responseCount).sum = 0 := by
  induction bytes with
  | nil => rfl
  | cons d bytes ih => simpa [Line.responseCount] using ih

theorem runs_abandoned (bytes : List Byte) {post : List Line} (h : wellFormedTrace post = true) :
    Runs false (.hash :: bytes.map .data ++ .reset :: post) false :=
  .cons (.inl rfl) ((runs_data bytes).append (.cons (.inr ⟨rfl, rfl⟩) (runs_of_wellFormedFrom h)))

/-- A RESET line may not stand inside the HASH. -/
theorem not_wellFormedFrom_abandoned (bytes : List Byte) (post : List Line) :
    wellFormedFrom false (.hash :: bytes.map .data ++ .reset :: post) = false := by
  rw [List.cons_append, wellFormedFrom_cons (b' := true) _ rfl, wellFormedFrom_data]
  rfl

theorem sum_responseCount_abandoned (bytes : List Byte) {post : List Line} (h : wellFormedTrace post = true) :
    ((Line.hash :: bytes.map .data ++ .reset :: post).map Line.responseCount).sum =
      (post.filterMap Line.command?).length := by
  rw [List.map_append, List.sum_append, List.map_cons, List.sum_cons, sum_responseCount_data, List.map_cons,
    List.sum_cons, sum_responseCount h]
  simp [Line.responseCount]

/-- Settles O56: the core takes these lines too; HASH, its DATA lines and RESET emit nothing. -/
theorem abandonedHashHasNoResponse : Obligations.AbandonedHashHasNoResponse := by
  intro s pre post ls bytes hm hpre hpost hls
  have hassoc : ls = pre ++ (.hash :: bytes.map .data ++ .reset :: post) := by rw [hls, List.append_assoc]
  have hruns : Runs false ls false := hassoc ▸ (runs_of_wellFormedFrom hpre).append (runs_abandoned bytes hpost)
  obtain ⟨hrun, hresponses⟩ := hruns.runSteps hm
  refine ⟨?_, hrun, hresponses.trans ?_⟩
  · rw [hassoc, wellFormedTrace, wellFormedFrom_append _ hpre, not_wellFormedFrom_abandoned]
  · rw [hassoc, List.map_append, List.sum_append, sum_responseCount hpre, sum_responseCount_abandoned bytes hpost]
    rfl

/-! ### The pseudo-commands -/

theorem wellFormedTrace_hashb (bytes : List Byte) : wellFormedTrace (hashb bytes) = true :=
  wellFormedTrace_hash bytes (.inl rfl)

theorem wellFormedTrace_hashinc (bytes : List Byte) : wellFormedTrace (hashinc bytes) = true := by
  refine wellFormedFrom_singles fun l hl => ?_
  simp only [hashinc, List.cons_append, List.mem_cons, List.mem_append, List.mem_map, List.not_mem_nil, or_false] at hl
  obtain rfl | ⟨blk, -, rfl⟩ | rfl := hl
  · exact .inr (.inl rfl)
  · exact .inr (.inr (.inl ⟨blk, rfl⟩))
  · exact .inr (.inr (.inr (.inl rfl)))

theorem wellFormedTrace_updatez {bytes : List Byte} {ls : List Line} (h : updatez bytes = some ls) :
    wellFormedTrace ls = true := by
  unfold updatez at h
  split at h
  · cases h; rfl
  · cases h

/-- A trace without RESET lines asserts no RST, and no trace changes the wires. -/
theorem presentTrace_undisturbed {ls : List Line} (h : Line.reset ∉ ls) (s : State) (n : Nat) :
    (s.presentTrace ls).undisturbed n := by
  refine ⟨fun b hb => ?_, fun w hw => ?_⟩
  · obtain ⟨l, hl, rfl⟩ := List.mem_map.1 (List.mem_of_mem_take hb)
    exact beq_eq_false_iff_ne.2 fun hreset => h (hreset ▸ hl)
  · cases List.mem_of_mem_take hw

/-- What HASH leaves of a stream, and FINALIZE of its blocks: the chaining value, and its digest as the response. -/
def State.EndsWith (t : State) (c : Word) : Prop :=
  t.cv = c ∧ t.phase = .final ∧ t.mode = .idle ∧ t.rsp = some (.okDigest (fin c) (hex (fin c)))

theorem filterMap_command_data (bytes : List Byte) : (bytes.map Line.data).filterMap Line.command? = [] := by
  rw [List.filterMap_map, List.filterMap_eq_nil_iff]
  exact fun _ _ => rfl

theorem filterMap_beat_data (bytes : List Byte) :
    (bytes.map Line.data).filterMap Line.beat? = bytes.map (beatWord 0#2) := by
  rw [List.filterMap_map, ← List.filterMap_eq_map]
  rfl

theorem filterMap_command_update (blocks : List Block) :
    (blocks.map Line.update).filterMap Line.command? = blocks.map fun b => ⟨0x02#8, portOfBytes b.toList⟩ := by
  rw [List.filterMap_map, ← List.filterMap_eq_map]
  rfl

/-- HASHB is HASH over a stream. -/
theorem runSteps_hashb (bytes : List Byte) {s : State} (hm : s.mode = .idle) :
    ∃ t, runSteps (hashb bytes).length (s.presentTrace (hashb bytes)) = .next t ∧ t.EndsWith (cvOf bytes) := by
  have hlen : (hashb bytes).length = bytes.length + 2 := by simp [hashb]
  have hcmd : (s.presentTrace (hashb bytes)).cmdPort = [⟨0x04#8, 0#512⟩] := by
    have hdata : (bytes.map Line.data ++ [Line.endLine]).filterMap Line.command? = [] := by
      rw [List.filterMap_append, filterMap_command_data]
      rfl
    exact congrArg (List.cons _) hdata
  have hbeat : (s.presentTrace (hashb bytes)).strmPort = bytes.map (beatWord 0#2) ++ [beatWord 1#2 0x00#8] := by
    change (bytes.map Line.data ++ [Line.endLine]).filterMap Line.beat? = _
    rw [List.filterMap_append, filterMap_beat_data]
    rfl
  have hund := presentTrace_undisturbed (ls := hashb bytes) (by simp [hashb]) s (bytes.length + 2)
  obtain ⟨t, hrun, hcv, hphase, hmode, -, hrsp, -⟩ := hashOfStream (s.presentTrace _) _ bytes _ _ _ hm hcmd hbeat hund
  exact ⟨t, hlen ▸ hrun, hcv, hphase, hmode, hrsp⟩

/-- HASHINC is INIT, after which CV = IV, and then one UPDATE a block and FINALIZE. -/
theorem runSteps_hashinc (bytes : List Byte) {s : State} (hm : s.mode = .idle) :
    ∃ t, runSteps (hashinc bytes).length (s.presentTrace (hashinc bytes)) = .next t ∧ t.EndsWith (cvOf bytes) := by
  have hlen : (hashinc bytes).length = (bs bytes).length + 1 + 1 := by simp [hashinc]
  have hstep := step_presentTrace ((bs bytes).map .update ++ [.finalize]) (b := false) (l := .init) (.inl rfl) hm
  rw [effect_init hm] at hstep
  have hcmd : ((bs bytes).map Line.update ++ [Line.finalize]).filterMap Line.command? =
      (bs bytes).map (fun b => ⟨0x02#8, portOfBytes b.toList⟩) ++ [⟨0x03#8, 0#512⟩] := by
    rw [List.filterMap_append, filterMap_command_update]
    rfl
  have hund := presentTrace_undisturbed (ls := (bs bytes).map .update ++ [.finalize]) (by simp)
    (s.initialise.respond .ok) ((bs bytes).length + 1)
  obtain ⟨t, hrun, hcv, hphase, hmode, hrsp, -⟩ :=
    incrementalEquivalence ((s.initialise.respond .ok).presentTrace _) bytes _ _ hm rfl hcmd hund
  rw [hlen]
  exact ⟨t, (runSteps_succ hstep).trans hrun, hcv, hphase, hmode, hrsp⟩

/-- Settles O52: both end with the chaining value of the bytes. -/
theorem pseudoCommandsAgree : Obligations.PseudoCommandsAgree := by
  refine ⟨fun bytes => ⟨wellFormedTrace_hashb bytes, wellFormedTrace_hashinc bytes⟩,
    fun _ _ => wellFormedTrace_updatez, fun s bytes hm => ?_⟩
  obtain ⟨t, hrun, hcv, hphase, hmode, hrsp⟩ := runSteps_hashb bytes hm
  obtain ⟨u, hrun', hcv', hphase', hmode', hrsp'⟩ := runSteps_hashinc bytes hm
  exact ⟨t, u, hrun, hrun', hcv.trans hcv'.symm, hphase.trans hphase'.symm, hmode.trans hmode'.symm,
    hrsp.trans hrsp'.symm⟩

end Sys2Proof.Machine
end
